-- ==== Sys2Proof/Word.lean ====
section
/-! DEFINITION. The widths of the machine's values (00_scope.md R9, R10). -/

namespace Sys2Proof

/-- A byte: 8 bits, read as an unsigned number 0 to 255 (R9). -/
abbrev Byte := BitVec 8

/-- A value of the program counter: 9 bits (R24). -/
abbrev PcWord := BitVec 9

/-- A register index that passed the check of R114: 0 to 7 (R20). -/
abbrev RegIndex := Fin 8

end Sys2Proof
end

