-- ==== Sys2Proof/Config.lean ====
section
/-! DEFINITION. The parameters of the core (00_scope.md R7) and what a machine may vary: OPCODE_MAP and HAS_SUB. -/

namespace Sys2Proof

/-- The fourteen mnemonics of 30_encoding.md R88: the keys of OPCODE_MAP. -/
inductive Op where
  | hlt | ret | push | pop | prn | call | jmp | jeq | jne | ldi | add | mul | cmp | sub
deriving DecidableEq, Repr

/-- The two parameters of R7 that a model may take as an argument (30_encoding.md R90, 92_eei_decisions.md D1, D18).
The values of this hardware are `Config.hardware`, in Sys2Proof/Decode.lean. -/
structure Config where
  /-- OPCODE_MAP: the opcode byte of each instruction. -/
  opcodeMap : Op → Byte
  /-- HAS_SUB: whether the optional SUB exists (R2). -/
  hasSub : Bool

/-- Whether the machine has the instruction: all but SUB always, SUB when HAS_SUB (R2, R88). -/
def Config.has (c : Config) : Op → Bool
  | .sub => c.hasSub
  | _ => true

/-- MEM_SIZE: the number of byte cells (R7). -/
def Config.memSize : Nat := 256

/-- SP_INDEX: the register that is the stack pointer (R7, R22). -/
def Config.spIndex : RegIndex := 7

/-- SP_RESET: the reset value of register 7 (R7, R37). -/
def Config.spReset : Byte := 244

/-- REG_RESET: the reset value of registers 0 to 6 (R7, R37). -/
def Config.regReset : Byte := 0

/-- PC_RESET: the reset value of the pc, the address of the first instruction (R7, R241). -/
def Config.pcReset : PcWord := 0

/-- LOAD_BASE: the address of the first byte of the loaded program (R7, R243). -/
def Config.loadBase : Nat := 0

/-- MEM_RESET: what a cell holds before anything is written to it (R7, R37). -/
def Config.memReset : Byte := 0

end Sys2Proof
end

