-- ==== Sys2Proof/Machine/State.lean ====
section
/-! DEFINITION. The state of the core: everything 10_state.md gives the machine, and its value after reset (R37). -/

namespace Sys2Proof.Machine

/-- The flags register: three independent bits (R28). -/
structure Flags where
  /-- `FL.E`, Equal. -/
  e : Bool
  /-- `FL.L`, LessThan. -/
  l : Bool
  /-- `FL.G`, GreaterThan. -/
  g : Bool
deriving DecidableEq, Repr

/-- `STATUS`: the two states of the run (R30). -/
inductive Status where
  | running
  | halted
deriving DecidableEq, Repr

/-- The values of the `CAUSE` register that the spec gives (R31, R200); their codes are `Cause.code`. The code 7 that 3 bits
could hold too has no name (log entry 5). -/
inductive Cause where
  /-- Code 0: not started, running, or halted by HLT. -/
  | none
  /-- Code 1. -/
  | unknownInstruction
  /-- Code 2. -/
  | addressOutOfRange
  /-- Code 3. -/
  | registerOutOfRange
  /-- Code 4. -/
  | stackOverflow
  /-- Code 5. -/
  | stackUnderflow
  /-- Code 6: reserved, raised by no rule (R122, R210). -/
  | unsupportedOperation
deriving DecidableEq, Repr

/-- `MEM` (R33) as the cells that hold something other than the reset value, addresses strictly rising. -/
abbrev Memory := List Host.Cell

/-- The whole state of the core (10_state.md). -/
structure State where
  /-- `x[0]` to `x[7]`; `x[7]` is SP, the same cell (R20, R22). -/
  regs : Vector Byte 8
  /-- `pc`, 0 to 256 in 9 bits (R24). -/
  pc : PcWord
  /-- `FL` (R28). -/
  flags : Flags
  /-- `STATUS` (R30). -/
  status : Status
  /-- `CAUSE` (R31). -/
  cause : Cause
  /-- `INFO`, 9 bits (R32). -/
  info : BitVec 9
  /-- `MEM` (R33). -/
  mem : Memory
  /-- `OUT`, oldest value first (R34). -/
  out : List Byte
deriving DecidableEq, Repr

/-- How a step can have no next state. The faults of 60_exceptions.md are not here: `raise` is a next state (R206, log
entry 4). -/
inductive Fault where
  /-- Raised by the step alone, at STATUS = Halted: "no step is defined" from there (R110, R119). Safe: the model stops
  where the spec has no step (log entry 3). -/
  | halted
deriving DecidableEq, Repr

/-- Why an instruction has no meaning in the model. -/
inductive Refusal where
  /-- Raised by an arm of exec whose instruction has no meaning yet. Safe: the model stops. No arm does. -/
  | notModelled (mnemonic : String)
deriving DecidableEq, Repr

/-- The state right after reset (R37, R240): not started, STATUS = Halted, memory all zero. -/
def State.reset : State where
  regs := #v[Config.regReset, Config.regReset, Config.regReset, Config.regReset,
    Config.regReset, Config.regReset, Config.regReset, Config.spReset]
  pc := Config.pcReset
  flags := { e := false, l := false, g := false }
  status := .halted
  cause := .none
  info := 0
  mem := []
  out := []

end Sys2Proof.Machine
end

