-- ==== Sys2Proof/Machine/Ops.lean ====
section
/-! DEFINITION. The named operations over registers, memory, output and status (the primitives of 00_scope.md R10), and
taking a fault (60_exceptions.md R206). There is no return from a fault (R209). -/

namespace Sys2Proof.Machine

/-! ### Memory -/

/-- `MEM[a]`, unchecked: a cell that is not listed holds the reset value (R37). -/
def Memory.read : Memory → Nat → Byte
  | [], _ => Config.memReset
  | (b, v) :: m, a => if a = b then v else Memory.read m a

/-- The cells `(a, v)` and then `m`, without the first where `v` is what an unlisted address reads as. -/
def Memory.cons (a : Nat) (v : Byte) (m : Memory) : Memory :=
  if v = Config.memReset then m else (a, v) :: m

/-- `MEM[a] <- v`, unchecked, keeping the canonical form. -/
def Memory.write : Memory → Nat → Byte → Memory
  | [], a, v => Memory.cons a v []
  | (b, w) :: m, a, v =>
    if a < b then Memory.cons a v ((b, w) :: m)
    else if a = b then Memory.cons a v m
    else (b, w) :: Memory.write m a v

/-- The addresses listed rise strictly from `lo`, lie in the address space, and hold no reset value. -/
def Memory.wfFrom : Nat → Memory → Bool
  | _, [] => true
  | lo, (a, v) :: m =>
    decide (lo ≤ a) && decide (a < Config.memSize) && decide (v ≠ Config.memReset) && Memory.wfFrom (a + 1) m

/-- The canonical form of a memory. -/
def Memory.wf (m : Memory) : Bool := Memory.wfFrom 0 m

/-! ### Faults -/

/-- A fault with its information (R200). -/
inductive CoreFault where
  | unknownInstruction (b : Byte)
  | addressOutOfRange (a : Nat)
  | registerOutOfRange (b : Byte)
  | stackOverflow
  | stackUnderflow
  /-- Reserved: no rule raises it (R122, R210). -/
  | unsupportedOperation
deriving DecidableEq, Repr

/-- The value `raise` writes to `CAUSE` (R200). -/
def CoreFault.cause : CoreFault → Cause
  | .unknownInstruction _ => .unknownInstruction
  | .addressOutOfRange _ => .addressOutOfRange
  | .registerOutOfRange _ => .registerOutOfRange
  | .stackOverflow => .stackOverflow
  | .stackUnderflow => .stackUnderflow
  | .unsupportedOperation => .unsupportedOperation

/-- The value `raise` writes to `INFO` (R200): the byte, the address, or 0. -/
def CoreFault.info : CoreFault → BitVec 9
  | .unknownInstruction b => b.setWidth 9
  | .addressOutOfRange a => BitVec.ofNat 9 a
  | .registerOutOfRange b => b.setWidth 9
  | .stackOverflow => 0
  | .stackUnderflow => 0
  | .unsupportedOperation => 0

/-- The code of a `CAUSE` value, 3 bits (R31, R200). -/
def Cause.code : Cause → BitVec 3
  | .none => 0
  | .unknownInstruction => 1
  | .addressOutOfRange => 2
  | .registerOutOfRange => 3
  | .stackOverflow => 4
  | .stackUnderflow => 5
  | .unsupportedOperation => 6

/-- `raise F(info)` at the state before the step: nothing changes but STATUS, CAUSE and INFO (R206). -/
def State.raise (s : State) (f : CoreFault) : State :=
  { s with status := .halted, cause := f.cause, info := f.info }

/-- The end of an instruction that began at `s`: the state it computed, or the fault it raised, which discards every write
of the step (R110, R206). -/
def State.settle (s : State) : Except CoreFault State → Host.Outcome State Fault Refusal
  | .ok t => .next t
  | .error f => .next (s.raise f)

/-! ### Registers -/

/-- `x[r]` (R20). -/
def State.reg (s : State) (r : RegIndex) : Byte := s.regs[r.val]

/-- `x[r] <- v` (R20). No register is hardwired. -/
def State.setReg (s : State) (r : RegIndex) (v : Byte) : State :=
  { s with regs := s.regs.set r.val v }

/-- `SP`: another name of `x[7]` (R22). -/
def State.sp (s : State) : Byte := s.reg Config.spIndex

/-- `SP <- v` (R22). -/
def State.setSp (s : State) (v : Byte) : State := s.setReg Config.spIndex v

/-! ### Checked memory accesses -/

/-- The cell at an address the memory has; none above 255 (R54, R55). -/
def State.memByte? (s : State) (a : Nat) : Option Byte :=
  if a < Config.memSize then some (s.mem.read a) else none

/-- `MemRead(a, 1)` (R10, R55). -/
def State.memRead (s : State) (a : Nat) : Except CoreFault Byte :=
  match s.memByte? a with
  | some v => .ok v
  | none => .error (.addressOutOfRange a)

/-- `MEM[a] <- v`, unchecked (R10). -/
def State.putByte (s : State) (a : Nat) (v : Byte) : State := { s with mem := s.mem.write a v }

/-- `MemWrite(a, 1, v)` (R10, R55). -/
def State.memWrite (s : State) (a : Nat) (v : Byte) : Except CoreFault State :=
  if a < Config.memSize then .ok (s.putByte a v) else .error (.addressOutOfRange a)

/-! ### The pc, the output, the run status -/

/-- `zext_9` (R10). -/
def zext9 (v : Byte) : PcWord := v.setWidth 9

/-- `pc <- t` by a control transfer: the target is a byte (R86). -/
def State.jump (s : State) (target : Byte) : State := { s with pc := zext9 target }

/-- `pc <- a + n + 1`, the common advance past an instruction of `n` operands (R116). -/
def State.advance (s : State) (n : Nat) : State := { s with pc := s.pc + BitVec.ofNat 9 (n + 1) }

/-- `Out(v)` (R34). -/
def State.output (s : State) (v : Byte) : State := { s with out := s.out ++ [v] }

/-- `halt`: STATUS becomes Halted, CAUSE is left as it is (R10, R190). -/
def State.halt (s : State) : State := { s with status := .halted }

end Sys2Proof.Machine
end

