-- ==== Sys2Proof/Machine/Operands.lean ====
section
/-! DEFINITION. Narrowing results and the addresses and values the stack instructions use (00_scope.md R10, 41_alu.md
R131, 43_stack_subroutine.md R160 to R164). -/

namespace Sys2Proof.Machine

/-- `trunc8(n)`: `n mod 256`, of any integer (R10, R131). -/
def trunc8 (n : Int) : Byte := BitVec.ofInt 8 n

/-- The address a push stores to: `SP - 1` (R160). -/
def State.pushAddress (s : State) : Nat := (s.sp - 1).toNat

/-- The address a pop reads: `SP` (R160). -/
def State.popAddress (s : State) : Nat := s.sp.toNat

/-- The first half of a push: StackOverflow at SP = 0, else SP is decremented (R161, R165). -/
def State.openSlot (s : State) : Except CoreFault State :=
  if s.sp = 0 then .error .stackOverflow else .ok (s.setSp (s.sp - 1))

/-- The first half of a pop: StackUnderflow at SP = 255, else the byte at SP (R162, R163). -/
def State.topOfStack (s : State) : Except CoreFault Byte :=
  if s.sp = 255 then .error .stackUnderflow else s.memRead s.popAddress

/-- The second half of a pop: SP is incremented (R160). -/
def State.closeSlot (s : State) : State := s.setSp (s.sp + 1)

/-- The return address of a CALL, `pc + 2`, which must fit in a byte (R164, R167). -/
def State.returnAddress (s : State) : Except CoreFault Byte :=
  if s.pc.toNat + 2 < Config.memSize then .ok (BitVec.ofNat 8 (s.pc.toNat + 2))
  else .error (.addressOutOfRange (s.pc.toNat + 2))

end Sys2Proof.Machine
end

