-- ==== Sys2Proof/Machine/Flags.lean ====
section
/-! DEFINITION. The one flag computation of the machine, CMP's (41_alu.md R135, R136), and the informative byte view of the
flags (10_state.md R29). -/

namespace Sys2Proof.Machine

/-- The flags of comparing `x` with `y`, both unsigned: L when the first is less (R135). -/
def compareFlags (x y : Byte) : Flags where
  e := decide (x.toNat = y.toNat)
  l := decide (x.toNat < y.toNat)
  g := decide (x.toNat > y.toNat)

/-- A flag as its bit. -/
def flagBit (b : Bool) : Byte := if b then 1 else 0

/-- The byte view `0b00000LGE` (R29): read by no instruction. -/
def Flags.toByte (f : Flags) : Byte := flagBit f.l <<< 2 ||| flagBit f.g <<< 1 ||| flagBit f.e

/-- All three flags are written (R28). -/
def State.setFlags (s : State) (f : Flags) : State := { s with flags := f }

end Sys2Proof.Machine
end

