-- ==== Sys2Proof/Syntax.lean ====
section
/-! DEFINITION. The instructions: one constructor per row of spec/opcode_table.json (30_encoding.md R88). -/

namespace Sys2Proof

/-- An instruction whose operands passed the checks of R113 and R114: a register operand is an index 0 to 7 (R84),
an immediate is any byte (R85). -/
inductive Instr where
  /-- HLT, R190. -/
  | hlt
  /-- RET, R168. -/
  | ret
  /-- PUSH r, R165. -/
  | push (r : RegIndex)
  /-- POP r, R166. -/
  | pop (r : RegIndex)
  /-- PRN r, R152. -/
  | prn (r : RegIndex)
  /-- CALL r, R167. -/
  | call (r : RegIndex)
  /-- JMP r, R181. -/
  | jmp (r : RegIndex)
  /-- JEQ r, R182. -/
  | jeq (r : RegIndex)
  /-- JNE r, R183. -/
  | jne (r : RegIndex)
  /-- LDI r, i, R151. -/
  | ldi (r : RegIndex) (i : Byte)
  /-- ADD a, b, R132. -/
  | add (a b : RegIndex)
  /-- MUL a, b, R133. -/
  | mul (a b : RegIndex)
  /-- CMP a, b, R135. -/
  | cmp (a b : RegIndex)
  /-- SUB a, b, R134: exists only when HAS_SUB. -/
  | sub (a b : RegIndex)
deriving DecidableEq, Repr

/-- The mnemonic of an instruction. -/
def Instr.op : Instr → Op
  | .hlt => .hlt
  | .ret => .ret
  | .push _ => .push
  | .pop _ => .pop
  | .prn _ => .prn
  | .call _ => .call
  | .jmp _ => .jmp
  | .jeq _ => .jeq
  | .jne _ => .jne
  | .ldi _ _ => .ldi
  | .add _ _ => .add
  | .mul _ _ => .mul
  | .cmp _ _ => .cmp
  | .sub _ _ => .sub

end Sys2Proof
end

