-- ==== Sys2Proof/Machine/Alu.lean ====
section
/-! DEFINITION. ADD, MUL, SUB, CMP (41_alu.md). -/

namespace Sys2Proof.Machine

/-- The operations of the ALU that write a register (R130, R134). -/
inductive AluOp where
  | add | mul | sub
deriving DecidableEq, Repr

/-- The exact result over the integers, before narrowing (R131). -/
def AluOp.exact : AluOp → Int → Int → Int
  | .add, x, y => x + y
  | .mul, x, y => x * y
  | .sub, x, y => x - y

/-- `x[a] <- trunc8(exact result)`: the first operand is source and destination (R130, R131). No flag is written. -/
def State.aluWrite (s : State) (op : AluOp) (a b : RegIndex) : State :=
  s.setReg a (trunc8 (op.exact (s.reg a).toNat (s.reg b).toNat))

/-- ADD a, b (R132). -/
def execAdd (a b : RegIndex) (s : State) : Host.Outcome State Fault Refusal :=
  .next ((s.aluWrite .add a b).advance 2)

/-- MUL a, b (R133). -/
def execMul (a b : RegIndex) (s : State) : Host.Outcome State Fault Refusal :=
  .next ((s.aluWrite .mul a b).advance 2)

/-- SUB a, b (R134). Whether a machine has it is the decoder's to say (R91). -/
def execSub (a b : RegIndex) (s : State) : Host.Outcome State Fault Refusal :=
  .next ((s.aluWrite .sub a b).advance 2)

/-- CMP a, b: writes all three flags and no register (R135). -/
def execCmp (a b : RegIndex) (s : State) : Host.Outcome State Fault Refusal :=
  .next ((s.setFlags (compareFlags (s.reg a) (s.reg b))).advance 2)

end Sys2Proof.Machine
end

