-- ==== Sys2Proof/Machine/ControlFlow.lean ====
section
/-! DEFINITION. JMP, JEQ, JNE (44_control_flow.md). -/

namespace Sys2Proof.Machine

/-- A register-indirect jump that is taken or not: not taken, the pc takes the common advance (R180). -/
def State.branch (s : State) (taken : Bool) (r : RegIndex) : State :=
  if taken then s.jump (s.reg r) else s.advance 1

/-- JMP r (R181). -/
def execJmp (r : RegIndex) (s : State) : Host.Outcome State Fault Refusal :=
  .next (s.jump (s.reg r))

/-- JEQ r (R182). -/
def execJeq (r : RegIndex) (s : State) : Host.Outcome State Fault Refusal :=
  .next (s.branch s.flags.e r)

/-- JNE r (R183). -/
def execJne (r : RegIndex) (s : State) : Host.Outcome State Fault Refusal :=
  .next (s.branch (!s.flags.e) r)

end Sys2Proof.Machine
end

