-- ==== Sys2Proof/Machine/DataMovement.lean ====
section
/-! DEFINITION. LDI and PRN (42_data_movement.md). -/

namespace Sys2Proof.Machine

/-- LDI r, i (R151). -/
def execLdi (r : RegIndex) (i : Byte) (s : State) : Host.Outcome State Fault Refusal :=
  .next ((s.setReg r i).advance 2)

/-- PRN r: appends `x[r]` to OUT (R152). -/
def execPrn (r : RegIndex) (s : State) : Host.Outcome State Fault Refusal :=
  .next ((s.output (s.reg r)).advance 1)

end Sys2Proof.Machine
end

