-- ==== Sys2Proof/Machine/Halt.lean ====
section
/-! DEFINITION. HLT (45_halt.md). -/

namespace Sys2Proof.Machine

/-- HLT: STATUS becomes Halted, and the pc takes the common advance (R190). -/
def execHlt (s : State) : Host.Outcome State Fault Refusal :=
  .next (s.halt.advance 0)

end Sys2Proof.Machine
end

