-- ==== Sys2Proof/Machine/Stack.lean ====
section
/-! DEFINITION. PUSH, POP, CALL, RET (43_stack_subroutine.md). The statements of each rule stand in its own order, so that
a later one sees the writes of an earlier one: this matters for operand register 7 (00_scope.md R11). -/

namespace Sys2Proof.Machine

/-- PUSH r (R165): `x[r]` is read after SP was decremented, so PUSH R7 stores the decremented SP. -/
def execPush (r : RegIndex) (s : State) : Host.Outcome State Fault Refusal :=
  s.settle do
    let s1 ← s.openSlot
    let s2 ← s1.memWrite s.pushAddress (s1.reg r)
    return s2.advance 1

/-- POP r (R166): `x[r]` is written before SP is incremented, so POP R7 increments the value just loaded, and raises
StackUnderflow where that value is 255. -/
def execPop (r : RegIndex) (s : State) : Host.Outcome State Fault Refusal :=
  s.settle do
    let v ← s.topOfStack
    if r = Config.spIndex ∧ v = 255 then .error .stackUnderflow
    else return (s.setReg r v).closeSlot.advance 1

/-- CALL r (R167): the return address is checked before the stack, and the target is read after the push. -/
def execCall (r : RegIndex) (s : State) : Host.Outcome State Fault Refusal :=
  s.settle do
    let ra ← s.returnAddress
    let s1 ← s.openSlot
    let s2 ← s1.memWrite s.pushAddress ra
    return s2.jump (s2.reg r)

/-- RET (R168). -/
def execRet (s : State) : Host.Outcome State Fault Refusal :=
  s.settle do
    let target ← s.topOfStack
    return (s.jump target).closeSlot

end Sys2Proof.Machine
end

