-- ==== Sys2Proof/WellFormed.lean ====
section
/-! DEFINITION. Which instruction terms a machine has. Register indices are in range by their type (R20), so the one
check left is whether the optional SUB exists (00_scope.md R2, 30_encoding.md R88). -/

namespace Sys2Proof

/-- The instruction is one the machine with configuration `c` has: every one but SUB, and SUB when HAS_SUB (R88). -/
def Instr.wellFormed (c : Config) (i : Instr) : Bool := c.has i.op

end Sys2Proof
end

