-- ==== Sys2Proof/Decode.lean ====
section
/-! DEFINITION. Decoding and encoding (30_encoding.md; the decode stages of 40_execution_cycle.md R110 to R114). -/

namespace Sys2Proof

/-- OPCODE_MAP of this hardware: the column "hex" of R88. The values are the spec's decision D1, from general knowledge
(log entry 2). -/
def opcodeByte : Op → Byte
  | .hlt => 0x01
  | .ret => 0x11
  | .push => 0x45
  | .pop => 0x46
  | .prn => 0x47
  | .call => 0x50
  | .jmp => 0x54
  | .jeq => 0x55
  | .jne => 0x56
  | .ldi => 0x82
  | .add => 0xA0
  | .mul => 0xA2
  | .cmp => 0xA7
  | .sub => 0xA1

/-- The configuration of this hardware (R7): the opcode map of R88, and no SUB (C1, D18; log entry 1). -/
def Config.hardware : Config where
  opcodeMap := opcodeByte
  hasSub := false

/-- The same machine with the optional SUB (R134). -/
def Config.withSub : Config := { Config.hardware with hasSub := true }

/-- Every row of the opcode map, in the order of spec/opcode_table.json. -/
def Op.all : List Op :=
  [.hlt, .ret, .push, .pop, .prn, .call, .jmp, .jeq, .jne, .ldi, .add, .mul, .cmp, .sub]

/-- The operand count the spec gives each instruction (R82, R88). -/
def Op.operandCount : Op → Nat
  | .hlt | .ret => 0
  | .push | .pop | .prn | .call | .jmp | .jeq | .jne => 1
  | .ldi | .add | .mul | .cmp | .sub => 2

/-- `b[7:6]`: the operand count an opcode byte carries (R80, R81). -/
def topBits (b : Byte) : Nat := (b >>> 6).toNat

/-- `instr_len`, the length in bytes an opcode byte tells (R95). -/
def instrLen (b : Byte) : Nat := topBits b + 1

/-- The length of an instruction in bytes (R80). -/
def Instr.length (i : Instr) : Nat := i.op.operandCount + 1

/-- What R90 requires of an opcode map: (a) the bytes of the instructions the machine has are distinct; (b) bits 7:6 of
each are its operand count. -/
def Config.Ok (c : Config) : Prop :=
  (∀ o p : Op, c.has o = true → c.has p = true → c.opcodeMap o = c.opcodeMap p → o = p) ∧
  (∀ o : Op, c.has o = true → topBits (c.opcodeMap o) = o.operandCount)

/-- Why bytes are no instruction. -/
inductive DecodeError where
  /-- The byte at this offset from the opcode byte lies beyond the bytes there are (R111, R113). -/
  | outOfBytes (offset : Nat)
  /-- The opcode byte is in no row of the opcode map (R112). -/
  | unknownInstruction (b : Byte)
  /-- A register-index operand is above 7 (R114). -/
  | registerOutOfRange (b : Byte)
deriving DecidableEq, Repr

/-- The row of the opcode map that a byte selects, by all of its eight bits (R81, R112). -/
def Config.lookup (c : Config) (b : Byte) : Option Op :=
  Op.all.find? fun o => c.has o && c.opcodeMap o == b

/-- The register a whole operand byte names: legal when 0 to 7, never reduced modulo 8 (R84, R114). -/
def regIndex (b : Byte) : Except DecodeError RegIndex :=
  if h : b.toNat < 8 then .ok ⟨b.toNat, h⟩ else .error (.registerOutOfRange b)

/-- One register operand (format R of R82). -/
def decodeR (mk : RegIndex → Instr) (op1 : Byte) : Except DecodeError Instr :=
  match regIndex op1 with
  | .error e => .error e
  | .ok r => .ok (mk r)

/-- Two register operands, the first checked first (format RR of R82; R114). -/
def decodeRR (mk : RegIndex → RegIndex → Instr) (op1 op2 : Byte) : Except DecodeError Instr :=
  match regIndex op1 with
  | .error e => .error e
  | .ok a =>
    match regIndex op2 with
    | .error e => .error e
    | .ok b => .ok (mk a b)

/-- The instruction an operation and its operand bytes make; the register-index check of R114. The operand bytes an
operation does not have are not looked at. -/
def decodeOperands (o : Op) (op1 op2 : Byte) : Except DecodeError Instr :=
  match o with
  | .hlt => .ok .hlt
  | .ret => .ok .ret
  | .push => decodeR .push op1
  | .pop => decodeR .pop op1
  | .prn => decodeR .prn op1
  | .call => decodeR .call op1
  | .jmp => decodeR .jmp op1
  | .jeq => decodeR .jeq op1
  | .jne => decodeR .jne op1
  | .ldi => decodeR (fun r => .ldi r op2) op1
  | .add => decodeRR .add op1 op2
  | .mul => decodeRR .mul op1 op2
  | .cmp => decodeRR .cmp op1 op2
  | .sub => decodeRR .sub op1 op2

/-- Operand byte `k` (1 or 2) of an instruction with `n` operands: fetched when `k` is at most `n` (R113). An operand that
the opcode does not have is not fetched and cannot fail; the value answered for it is used by no instruction. -/
def operandAt (byteAt : Nat → Option Byte) (n k : Nat) : Except DecodeError Byte :=
  if k ≤ n then
    match byteAt k with
    | some b => .ok b
    | none => .error (.outOfBytes k)
  else .ok 0

/-- The decoder, over the bytes at offsets 0, 1, 2 from the opcode byte, its checks in the order of R110 and R117: the
opcode byte is there, it is known, the operand bytes are there, the register indices are in range. -/
def decodeFrom (c : Config) (byteAt : Nat → Option Byte) : Except DecodeError Instr :=
  match byteAt 0 with
  | none => .error (.outOfBytes 0)
  | some ir =>
    match c.lookup ir with
    | none => .error (.unknownInstruction ir)
    | some o =>
      match operandAt byteAt (topBits ir) 1 with
      | .error e => .error e
      | .ok op1 =>
        match operandAt byteAt (topBits ir) 2 with
        | .error e => .error e
        | .ok op2 => decodeOperands o op1 op2

/-- Decoding a list of bytes: the instruction at its head and the bytes after it. -/
def decode (c : Config) (bytes : List Byte) : Except DecodeError (Instr × List Byte) :=
  match decodeFrom c (fun k => bytes[k]?) with
  | .error e => .error e
  | .ok i => .ok (i, bytes.drop i.length)

/-- The byte of a register operand (R84). -/
def regByte (r : RegIndex) : Byte := BitVec.ofNat 8 r.val

/-- The operand bytes of an instruction, in the order of R82. -/
def Instr.operandBytes : Instr → List Byte
  | .hlt => []
  | .ret => []
  | .push r => [regByte r]
  | .pop r => [regByte r]
  | .prn r => [regByte r]
  | .call r => [regByte r]
  | .jmp r => [regByte r]
  | .jeq r => [regByte r]
  | .jne r => [regByte r]
  | .ldi r i => [regByte r, i]
  | .add a b => [regByte a, regByte b]
  | .mul a b => [regByte a, regByte b]
  | .cmp a b => [regByte a, regByte b]
  | .sub a b => [regByte a, regByte b]

/-- The bytes of an instruction, lowest address first: the opcode byte, then the operands (R50, R81). -/
def encode (c : Config) (i : Instr) : List Byte := c.opcodeMap i.op :: i.operandBytes

/-- The three bytes (the longest instruction, R80) of a word numbered as spec/opcode_table.json numbers it: byte 0 is bits
7:0, byte 1 is bits 15:8, byte 2 is bits 23:16; every bit at or above `nbits` is 0. -/
def tableBytes (nbits w : Nat) : List Byte :=
  let v := w % 2 ^ nbits
  [BitVec.ofNat 8 v, BitVec.ofNat 8 (v / 2 ^ 8), BitVec.ofNat 8 (v / 2 ^ 16)]

/-- The instruction this hardware's decoder reads from a word of the opcode table. -/
def decodeTableWord (nbits w : Nat) : Option Instr :=
  match decode Config.hardware (tableBytes nbits w) with
  | .ok (i, _) => some i
  | .error _ => none

end Sys2Proof
end

