-- ==== Sys2Proof/Machine/Fetch.lean ====
section
/-! DEFINITION. Fetching and decoding the instruction at the pc (40_execution_cycle.md R111 to R114). -/

namespace Sys2Proof.Machine

/-- The fault of a step whose bytes at address `a` are no instruction (R111 to R114). -/
def fetchFault (a : Nat) : DecodeError → CoreFault
  | .outOfBytes k => .addressOutOfRange (a + k)
  | .unknownInstruction b => .unknownInstruction b
  | .registerOutOfRange b => .registerOutOfRange b

/-- The instruction at the pc, read from memory itself (R61), or the fault that the fetch and decode stages raise. -/
def State.fetch (c : Config) (s : State) : Except CoreFault Instr :=
  match decodeFrom c (fun k => s.memByte? (s.pc.toNat + k)) with
  | .ok i => .ok i
  | .error e => .error (fetchFault s.pc.toNat e)

end Sys2Proof.Machine
end

