-- ==== Sys2Proof/Machine/Cycle.lean ====
section
/-! DEFINITION. One step and the loop, for a machine of any configuration (40_execution_cycle.md R110, R119). -/

namespace Sys2Proof.Machine

/-- `step()` of R110: defined at STATUS = Running only. -/
def cycle (c : Config) (s : State) : Host.Outcome State Fault Refusal :=
  match s.status with
  | .halted => .fault .halted
  | .running =>
    match s.fetch c with
    | .error f => .next (s.raise f)
    | .ok i => exec i s

/-- At most `n` steps of the loop of R119, which ends where no step is defined. Single-stepping is the same (R120). -/
def runFor (c : Config) : Nat → State → State
  | 0, s => s
  | n + 1, s =>
    match cycle c s with
    | .next t => runFor c n t
    | .fault _ => s
    | .refused _ => s

end Sys2Proof.Machine
end

