-- ==== Sys2Proof/Machine/HostInterface.lean ====
section
/-! DEFINITION. The host's side of a run: reset, load, run, status (10_state.md R38 to R40, 70_reset_and_hazards.md R240 to
R246). None of it is a step of the core. -/

namespace Sys2Proof.Machine

/-- The bytes of an image written one after another from address `a` upward. -/
def Memory.writeFrom : Memory → Nat → List Byte → Memory
  | m, _, [] => m
  | m, a, b :: bs => Memory.writeFrom (m.write a b) (a + 1) bs

/-- The effect of the loader: the image from LOAD_BASE upward and nothing else; an image longer than the memory is not
loaded (R243, R244). -/
def State.load (s : State) (img : List Byte) : Option State :=
  if img.length ≤ Config.memSize then some { s with mem := s.mem.writeFrom Config.loadBase img } else none

/-- The effect of `run` (R39). -/
def State.start (s : State) : State := { s with status := .running }

/-- The launch state of an image: reset, load, run (R242). None where the image cannot be loaded (R244). -/
def launch (img : List Byte) : Option State :=
  (State.reset.load img).map State.start

/-- The exit status the host reports: `CAUSE` (R31, R207). -/
def State.exitStatus (s : State) : BitVec 3 := s.cause.code

/-- How far the host has come since reset (R242). -/
inductive HostPhase where
  | fresh
  | loaded
  | started
deriving DecidableEq, Repr

/-- What the host may do to the core (R246). -/
inductive HostAction where
  | reset
  | load (img : List Byte)
  | run
deriving DecidableEq, Repr

/-- The core with the host's progress beside it. -/
structure Session where
  phase : HostPhase
  core : State
deriving DecidableEq, Repr

/-- After reset (R240). -/
def Session.fresh : Session := { phase := .fresh, core := State.reset }

/-- A move of the host, where the spec gives it one: load once after reset, run once after load, reset when Halted
(R38, R39, R246); none otherwise (log entry 8). -/
def Session.act (x : Session) : HostAction → Option Session
  | .reset => if x.core.status = .halted then some Session.fresh else none
  | .load img =>
    if x.phase = .fresh then (x.core.load img).map fun s => { phase := .loaded, core := s } else none
  | .run => if x.phase = .loaded then some { phase := .started, core := x.core.start } else none

/-- The bytes stored at the pc and after it, as far as the memory goes. For `State.withFetchWord`. -/
def State.placeAtPc (s : State) (bytes : List Byte) : State :=
  { s with mem := s.mem.writeFrom s.pc.toNat (bytes.take (Config.memSize - s.pc.toNat)) }

end Sys2Proof.Machine
end

