-- ==== Sys2Proof/Machine/Step.lean ====
section
/-! DEFINITION. The step of this hardware, and where the host places an instruction for it. -/

namespace Sys2Proof.Machine

/-- One step of this hardware (R110): the cycle with the parameters of R7. -/
def step (s : State) : Host.Outcome State Fault Refusal := cycle Config.hardware s

/-- The state with a word of the opcode table stored at the pc, and STATUS = Running, which a step needs (R110): it stands
for the host's load and run (log entry 3). -/
def State.withFetchWord (s : State) (nbits w : Nat) : State := (s.placeAtPc (tableBytes nbits w)).start

end Sys2Proof.Machine
end

