-- ==== Sys2Proof/Machine/Text.lean ====
section
/-! DEFINITION. The text forms at the host's side: the printed output (10_state.md R41), the loader's text format
(30_encoding.md R100), mnemonic notation and disassembly (R96, R101). No step of the core reads or writes text. -/

namespace Sys2Proof.Machine

/-- The decimal digit of a number below 10. -/
def digitChar (n : Nat) : Char := Char.ofNat ('0'.toNat + n)

/-- A byte in decimal, without sign and without leading zeros (R41). -/
def decimal (v : Byte) : List Char :=
  let n := v.toNat
  if n < 10 then [digitChar n]
  else if n < 100 then [digitChar (n / 10), digitChar (n % 10)]
  else [digitChar (n / 100), digitChar (n / 10 % 10), digitChar (n % 10)]

/-- What the host writes for one `Out(v)`: the decimal digits and one newline, 0x0A (R41). -/
def outputLine (v : Byte) : List Char := decimal v ++ [Char.ofNat 0x0A]

/-- What the host has written for the whole output stream, in program order (R41). -/
def State.printed (s : State) : List Char := s.out.flatMap outputLine

/-! ### The loader's text format (R100) -/

/-- White space inside a line. That it may stand around the literal is the model's reading of the spec's example lines (log
entry 9). -/
def isBlank (c : Char) : Bool := c == ' ' || c == '\t' || c == '\r'

/-- The characters without white space at either end. -/
def trim (l : List Char) : List Char := ((l.dropWhile isBlank).reverse.dropWhile isBlank).reverse

/-- The text of a line before its comment, trimmed: "any text from `#` to end-of-line is a comment and stripped". -/
def stripLine (l : List Char) : List Char := trim (l.takeWhile (· != '#'))

/-- The bits of a literal, most significant first, folded onto `n`; none at another character. -/
def binaryValue : Nat → List Char → Option Nat
  | n, [] => some n
  | n, c :: cs =>
    if c == '0' then binaryValue (2 * n) cs
    else if c == '1' then binaryValue (2 * n + 1) cs
    else none

/-- An 8-character binary literal; none for anything else (log entry 9). -/
def parseLiteral (l : List Char) : Option Byte :=
  if l.length = 8 then (binaryValue 0 l).map (BitVec.ofNat 8) else none

/-- The load image of a program text, a list of lines; none where a surviving line is no literal. -/
def parseLines : List (List Char) → Option (List Byte)
  | [] => some []
  | l :: ls =>
    let t := stripLine l
    if t.isEmpty then parseLines ls
    else
      match parseLiteral t, parseLines ls with
      | some b, some bs => some (b :: bs)
      | _, _ => none

/-- A text cut into its lines. -/
def splitLines : List Char → List (List Char)
  | [] => [[]]
  | c :: cs =>
    if c == Char.ofNat 0x0A then [] :: splitLines cs
    else
      match splitLines cs with
      | [] => [[c]]
      | l :: ls => (c :: l) :: ls

/-- The load image a program text stands for (R100). -/
def parseProgram (text : List Char) : Option (List Byte) := parseLines (splitLines text)

/-- A bit as its character. -/
def bitChar (b : Bool) : Char := if b then '1' else '0'

/-- A byte as an 8-character binary literal, most significant bit first (R9, R100). -/
def literal (b : Byte) : List Char :=
  [bitChar (b.getLsbD 7), bitChar (b.getLsbD 6), bitChar (b.getLsbD 5), bitChar (b.getLsbD 4),
   bitChar (b.getLsbD 3), bitChar (b.getLsbD 2), bitChar (b.getLsbD 1), bitChar (b.getLsbD 0)]

/-! ### Mnemonic notation (R96) and disassembly (R101) -/

/-- The mnemonic of R88. -/
def mnemonic : Op → List Char
  | .hlt => ['H', 'L', 'T']
  | .ret => ['R', 'E', 'T']
  | .push => ['P', 'U', 'S', 'H']
  | .pop => ['P', 'O', 'P']
  | .prn => ['P', 'R', 'N']
  | .call => ['C', 'A', 'L', 'L']
  | .jmp => ['J', 'M', 'P']
  | .jeq => ['J', 'E', 'Q']
  | .jne => ['J', 'N', 'E']
  | .ldi => ['L', 'D', 'I']
  | .add => ['A', 'D', 'D']
  | .mul => ['M', 'U', 'L']
  | .cmp => ['C', 'M', 'P']
  | .sub => ['S', 'U', 'B']

/-- A register operand: `R` and its index. -/
def regText (r : RegIndex) : List Char := ['R', digitChar r.val]

/-- The operands of an instruction, a comma between two. -/
def operandText : Instr → List Char
  | .hlt | .ret => []
  | .push r | .pop r | .prn r | .call r | .jmp r | .jeq r | .jne r => ' ' :: regText r
  | .ldi r i => ' ' :: regText r ++ ',' :: decimal i
  | .add a b | .mul a b | .cmp a b | .sub a b => ' ' :: regText a ++ ',' :: regText b

/-- An instruction in mnemonic notation (R96). -/
def asmText (i : Instr) : List Char := mnemonic i.op ++ operandText i

/-- A hexadecimal digit, upper case. -/
def hexDigit (n : Nat) : Char := if n < 10 then digitChar n else Char.ofNat ('A'.toNat + (n - 10))

/-- A byte as two hexadecimal digits. -/
def hexByte (b : Byte) : List Char := [hexDigit (b.toNat / 16), hexDigit (b.toNat % 16)]

/-- A byte that is not a valid opcode: `.byte 0xNN` (R101). -/
def byteText (b : Byte) : List Char := ['.', 'b', 'y', 't', 'e', ' ', '0', 'x'] ++ hexByte b

/-- The mnemonic form of the instruction at the head of the bytes, or the byte form where the first byte is no opcode of the
machine (R101) or its operands are missing or no registers (log entry 13). -/
def disassemble (c : Config) (bytes : List Byte) : List Char :=
  match decode c bytes, bytes with
  | .ok (i, _), _ => asmText i
  | .error _, b :: _ => byteText b
  | .error _, [] => []

/-- How many bytes a listing line shows: those of the instruction at the head, or one (R101). -/
def listedLength (c : Config) (bytes : List Byte) : Nat :=
  match decode c bytes with
  | .ok (i, _) => i.length
  | .error _ => 1

/-- A line of a listing: the address, the bytes in hexadecimal, the mnemonic form (R101). -/
def listingLine (c : Config) (address : Byte) (bytes : List Byte) : List Char :=
  decimal address ++ (bytes.take (listedLength c bytes)).flatMap (fun b => ' ' :: hexByte b) ++
    ' ' :: disassemble c bytes

end Sys2Proof.Machine
end

