-- ==== Sys2Proof/Safety.lean ====
section
/-! DEFINITION. The terms claims are stated in: how a run ends (60_exceptions.md R207), the invariants of the state
(10_state.md R42), what a step can reach, and what it leaves unchanged. -/

namespace Sys2Proof.Machine

/-- The run ended cleanly (R207). -/
def State.CleanEnd (s : State) : Prop := s.status = .halted ∧ s.cause = .none

/-- The run ended with a fault (R207). -/
def State.FaultedEnd (s : State) : Prop := s.status = .halted ∧ s.cause ≠ .none

/-- At most one flag is 1 (R42: exactly one after a CMP, none before the first). -/
def Flags.AtMostOne (f : Flags) : Prop :=
  ¬(f.e = true ∧ f.l = true) ∧ ¬(f.e = true ∧ f.g = true) ∧ ¬(f.l = true ∧ f.g = true)

/-- The invariants of R42, with the canonical form of the memory: the pc is 0 to 256, at most one flag is 1, a `CAUSE` other
than 0 goes with Halted, and INFO is 0 while CAUSE is (R32, R200). Registers and cells are bytes by their type. -/
structure State.Inv (s : State) : Prop where
  mem_wf : s.mem.wf = true
  pc_le : s.pc.toNat ≤ 256
  flags_le : s.flags.AtMostOne
  cause_halted : s.cause ≠ .none → s.status = .halted
  info_zero : s.cause = .none → s.info = 0

/-- `t` is the state after some number of steps from `s`. -/
inductive Reaches (c : Config) (s : State) : State → Prop where
  | refl : Reaches c s s
  | step {t u : State} : Reaches c s t → cycle c t = .next u → Reaches c s u

/-- The memory holds `bytes` at the pc and after it, none of them above address 255. -/
def State.HasCode (s : State) (bytes : List Byte) : Prop :=
  ∀ k : Nat, ∀ b : Byte, bytes[k]? = some b →
    s.pc.toNat + k < Config.memSize ∧ s.mem.read (s.pc.toNat + k) = b

/-- The bytes of memory from the pc to address 255. -/
def State.codeFromPc (s : State) : List Byte :=
  (List.range (Config.memSize - s.pc.toNat)).map fun k => s.mem.read (s.pc.toNat + k)

/-- The step from `t` takes `v` for its opcode byte (R112, R115): unknown, it faults with `v`; known, it executes the
instruction of that operation whose encoding is at the pc, or, where no encoding of one is (an operand byte beyond the memory,
a register index above 7), takes a fault that is not UnknownInstruction. -/
def RunsOpcode (c : Config) (t : State) (v : Byte) : Prop :=
  (c.lookup v = none → cycle c t = .next (t.raise (.unknownInstruction v))) ∧
  ∀ o : Op, c.lookup v = some o →
    (∃ i : Instr, i.op = o ∧ t.HasCode (encode c i) ∧ cycle c t = exec i t) ∨
    ((∀ i : Instr, i.op = o → ¬ t.HasCode (encode c i)) ∧
      ∃ f : CoreFault, cycle c t = .next (t.raise f) ∧ ∀ b : Byte, f ≠ .unknownInstruction b)

/-- Every byte of memory reads in `t` as it did in `s`. -/
def SameMemory (s t : State) : Prop := ∀ a : Nat, t.mem.read a = s.mem.read a

/-- Every register but those of `rs` is in `t` as it was in `s`. -/
def SameRegsBut (rs : List RegIndex) (s t : State) : Prop := ∀ q : RegIndex, q ∉ rs → t.reg q = s.reg q

/-- STATUS, CAUSE and INFO are unchanged. -/
def SameControl (s t : State) : Prop := t.status = s.status ∧ t.cause = s.cause ∧ t.info = s.info

/-- The control registers and everything a faulting step may not touch are the fault's (R206): `t` differs from `s` in STATUS,
CAUSE and INFO alone. -/
def FaultOnly (s t : State) : Prop :=
  t.status = .halted ∧ t.pc = s.pc ∧ t.flags = s.flags ∧ t.out = s.out ∧ SameRegsBut [] s t ∧ SameMemory s t

/-- The state with other values of `FL.L` and `FL.G`. -/
def State.withLessGreater (s : State) (l g : Bool) : State := { s with flags := { s.flags with l := l, g := g } }

/-- The registers that the table of R21 gives an instruction as written. -/
def writtenRegs : Instr → List RegIndex
  | .ldi r _ => [r]
  | .add a _ | .mul a _ | .sub a _ => [a]
  | .push _ | .call _ | .ret => [Config.spIndex]
  | .pop r => [r, Config.spIndex]
  | .prn _ | .cmp _ _ | .jmp _ | .jeq _ | .jne _ | .hlt => []

/-- How many of an instruction's operand bytes, from the first, are register indices (the formats of R82). -/
def registerOperands : Op → Nat
  | .hlt | .ret => 0
  | .push | .pop | .prn | .call | .jmp | .jeq | .jne | .ldi => 1
  | .add | .mul | .cmp | .sub => 2

/-- A line of a program text (R100): a byte or none, white space, a comment or none. -/
structure ProgramLine where
  byte : Option Byte
  pad : List Char
  comment : Option (List Char)
deriving DecidableEq, Repr

/-- The white space is white space, and a comment does not run past the line's end. -/
def ProgramLine.Valid (l : ProgramLine) : Prop :=
  (∀ x ∈ l.pad, isBlank x = true) ∧ ∀ cs, l.comment = some cs → Char.ofNat 0x0A ∉ cs

/-- The characters of a line. -/
def ProgramLine.chars (l : ProgramLine) : List Char :=
  (match l.byte with | some b => literal b | none => []) ++ l.pad ++
    (match l.comment with | some cs => '#' :: cs | none => [])

/-- Lines with a newline between two. -/
def joinLines : List (List Char) → List Char
  | [] => []
  | [l] => l
  | l :: m :: ls => l ++ Char.ofNat 0x0A :: joinLines (m :: ls)

end Sys2Proof.Machine
end

