-- ==== Sys2Proof/Certificates/Slice0/Obligations.lean ====
section
/-! DEFINITION. What is claimed of the machine. Each statement's docstring names the rule of spec/ it comes from; where it
rests on a decision of the spec (Dn of 92_eei_decisions.md) or on a choice of the model (log entry n), it says so.
A statement about `cycle c` is about `step` at `c = Config.hardware`, which is `step` by definition. -/

open Sys2Proof Sys2Proof.Machine

/-! ### Encoding -/

/-- Instruction bytes written out from R88, one word for each of its fourteen rows, decode to their instruction on this
hardware, and A1 does once HAS_SUB is true (values: D1, log entry 2; SUB: D18). -/
def Obligations.SpelledOutWordsDecode : Prop :=
  decode Config.hardware [0x01, 0x45] = .ok (.hlt, [0x45]) ∧
  decode Config.hardware [0x11] = .ok (.ret, []) ∧
  decode Config.hardware [0x45, 0x05] = .ok (.push 5, []) ∧
  decode Config.hardware [0x46, 0x06] = .ok (.pop 6, []) ∧
  decode Config.hardware [0x47, 0x07] = .ok (.prn 7, []) ∧
  decode Config.hardware [0x50, 0x03] = .ok (.call 3, []) ∧
  decode Config.hardware [0x54, 0x02, 0x11] = .ok (.jmp 2, [0x11]) ∧
  decode Config.hardware [0x55, 0x01] = .ok (.jeq 1, []) ∧
  decode Config.hardware [0x56, 0x04] = .ok (.jne 4, []) ∧
  decode Config.hardware [0x82, 0x03, 0xFF] = .ok (.ldi 3 255, []) ∧
  decode Config.hardware [0xA0, 0x07, 0x02] = .ok (.add 7 2, []) ∧
  decode Config.hardware [0xA2, 0x04, 0x05] = .ok (.mul 4 5, []) ∧
  decode Config.hardware [0xA7, 0x00, 0x01] = .ok (.cmp 0 1, []) ∧
  decode Config.hardware [0xA1, 0x00, 0x01] = .error (.unknownInstruction 0xA1) ∧
  decode Config.withSub [0xA1, 0x00, 0x01] = .ok (.sub 0 1, [])

/-- R90: under (a) and (b), whatever the opcode bytes are, decoding the encoding of an instruction the machine has gives that
instruction and leaves the bytes after it. -/
def Obligations.EncodedInstructionDecodesToItself : Prop :=
  ∀ c : Config, c.Ok → ∀ (i : Instr) (rest : List Byte), i.wellFormed c = true →
    decode c (encode c i ++ rest) = .ok (i, rest)

/-- The other direction: bytes that decode are the encoding of what they decode to, so no two encodings share a meaning
and no operand bit is dropped (R81, R84). -/
def Obligations.DecodedBytesAreTheEncoding : Prop :=
  ∀ c : Config, c.Ok → ∀ (bytes rest : List Byte) (i : Instr), decode c bytes = .ok (i, rest) →
    i.wellFormed c = true ∧ bytes = encode c i ++ rest

/-- R80: an instruction is one opcode byte and zero, one or two operand bytes; its length is 1 + opcode[7:6], told by the
opcode byte alone: the bytes after it cannot change it. -/
def Obligations.InstructionLengthIsOnePlusTopBits : Prop :=
  ∀ c : Config, c.Ok → ∀ (bytes rest : List Byte) (i : Instr), decode c bytes = .ok (i, rest) →
    ∃ (b : Byte) (operands : List Byte), bytes = b :: (operands ++ rest) ∧
      operands.length = b.toNat / 64 ∧ b.toNat / 64 ≤ 2 ∧
      ∀ (more rest' : List Byte) (j : Instr), decode c (b :: more) = .ok (j, rest') →
        (b :: more).length = 1 + b.toNat / 64 + rest'.length

/-- R91 and R83, for any opcode map that meets R90: 243 byte values are unknown opcodes without SUB, 242 with it, and every
byte with bits 7:6 = 11 is one (D30). -/
def Obligations.UnknownOpcodesAreAllTheOthers : Prop :=
  ∀ c : Config, c.Ok →
    (Finset.univ.filter fun n : Fin 256 => c.lookup (BitVec.ofFin n) = none).card = (if c.hasSub then 242 else 243) ∧
    ∀ b : Byte, 192 ≤ b.toNat → c.lookup b = none

/-! ### The step -/

/-- R110, R115: where the bytes at the pc decode to an instruction, the step of a running machine executes it. The pc's
advance is part of `exec`; the step adds nothing around it. -/
def Obligations.StepRunsDecodedInstruction : Prop :=
  (∀ s : State, step s = cycle Config.hardware s) ∧
  ∀ (c : Config) (s : State) (i : Instr) (rest : List Byte), s.status = .running →
    decode c s.codeFromPc = .ok (i, rest) → cycle c s = exec i s

/-- R117 (D6, D7, D8, D15): the checks of a step in their order. Opcode address; known opcode; first operand's address, then
the second's; first register index, then the second; then the instruction itself. An operand byte the opcode does not have
is not fetched, so its address is not checked. The spec's pc is 0 to 256; that the first clause holds at 257 to 511 too, which
no run reaches, is the model's choice (log entry 6). -/
def Obligations.StepChecksInOrder : Prop :=
  ∀ (c : Config) (s : State), c.Ok → s.status = .running →
    (256 ≤ s.pc.toNat → cycle c s = .next (s.raise (.addressOutOfRange s.pc.toNat))) ∧
    (s.pc.toNat < 256 → c.lookup (s.mem.read s.pc.toNat) = none →
      cycle c s = .next (s.raise (.unknownInstruction (s.mem.read s.pc.toNat)))) ∧
    (∀ o : Op, s.pc.toNat < 256 → c.lookup (s.mem.read s.pc.toNat) = some o →
      (1 ≤ o.operandCount → s.pc.toNat + 1 = 256 → cycle c s = .next (s.raise (.addressOutOfRange 256))) ∧
      (o.operandCount = 2 → s.pc.toNat + 2 = 256 → cycle c s = .next (s.raise (.addressOutOfRange 256))) ∧
      (s.pc.toNat + o.operandCount < 256 →
        (1 ≤ registerOperands o → 8 ≤ (s.mem.read (s.pc.toNat + 1)).toNat →
          cycle c s = .next (s.raise (.registerOutOfRange (s.mem.read (s.pc.toNat + 1))))) ∧
        (registerOperands o = 2 → (s.mem.read (s.pc.toNat + 1)).toNat < 8 →
          8 ≤ (s.mem.read (s.pc.toNat + 2)).toNat →
          cycle c s = .next (s.raise (.registerOutOfRange (s.mem.read (s.pc.toNat + 2))))) ∧
        ((1 ≤ registerOperands o → (s.mem.read (s.pc.toNat + 1)).toNat < 8) →
          (registerOperands o = 2 → (s.mem.read (s.pc.toNat + 2)).toNat < 8) →
          ∃ i : Instr, i.op = o ∧ s.HasCode (encode c i) ∧ cycle c s = exec i s)))

/-- R201: an opcode byte with no handler ends the run with UnknownInstruction, leaves the pc on it, fetches no operand (so it is
the same at addresses 254 and 255), and no step follows; 0xFF is such a byte on this hardware. That the byte is reported in
INFO and the exit status is CAUSE, hence not 0, is D10; that everything else stays as it was is R206 with D9; that the step
which does not follow has the outcome `Fault.halted` is the model's choice (log entry 3). -/
def Obligations.UnknownOpcodeEndsTheRun : Prop :=
  (∀ (c : Config) (s : State), s.status = .running → s.pc.toNat < 256 → c.lookup (s.mem.read s.pc.toNat) = none →
    ∃ t, cycle c s = .next t ∧ FaultOnly s t ∧ t.cause = .unknownInstruction ∧
      t.info.toNat = (s.mem.read s.pc.toNat).toNat ∧ t.exitStatus ≠ 0 ∧ cycle c t = .fault .halted) ∧
  Config.hardware.lookup 0xFF = none

/-- R203, R114: a byte 8 to 255 in a register-index position raises RegisterOutOfRange, before the instruction does anything,
for every instruction that has such an operand, the first operand first; HLT and RET cannot raise it. That INFO holds the byte
is R200 with D10; that this fault enters Halted is D26. -/
def Obligations.RegisterOperandAboveSevenFaults : Prop :=
  (∀ (c : Config) (s : State) (o : Op) (x y : Byte), c.Ok → c.has o = true → s.status = .running →
    s.HasCode ((c.opcodeMap o :: [x, y]).take (o.operandCount + 1)) →
    (o ≠ .hlt → o ≠ .ret → 8 ≤ x.toNat →
      ∃ t, cycle c s = .next t ∧ FaultOnly s t ∧ t.cause = .registerOutOfRange ∧ t.info.toNat = x.toNat) ∧
    (o = .add ∨ o = .mul ∨ o = .cmp ∨ o = .sub → x.toNat < 8 → 8 ≤ y.toNat →
      ∃ t, cycle c s = .next t ∧ FaultOnly s t ∧ t.cause = .registerOutOfRange ∧ t.info.toNat = y.toNat) ∧
    (o = .hlt ∨ o = .ret → s.cause = .none → ∀ t, cycle c s = .next t → t.cause ≠ .registerOutOfRange))

/-- R110, R119: no step is defined exactly from STATUS = Halted; a running machine always takes its step, to a next state,
and no instruction is refused. That the outcome has the name `Fault.halted` is the model's choice (log entry 3). -/
def Obligations.RunningMachinesStepAndHaltedOnesDoNot : Prop :=
  ∀ (c : Config) (s : State),
    (s.status = .halted → cycle c s = .fault .halted) ∧ (s.status = .running → ∃ t, cycle c s = .next t)

/-- R119, R30: STATUS becomes Halted by HLT, which leaves CAUSE alone, or by a fault, and by nothing else (D26). -/
def Obligations.OnlyHltAndFaultsHalt : Prop :=
  ∀ (c : Config) (s t : State), c.Ok → cycle c s = .next t → t.status = .halted →
    (s.HasCode (encode c .hlt) ∧ t.cause = s.cause ∧ t.info = s.info) ∨ (∃ f, t = s.raise f)

/-- R120 (derived there): running is single-stepping; a run of `m + n` steps is `m` steps and then `n`, and once Halted the
state never changes again. -/
def Obligations.RunsAreSingleSteps : Prop :=
  ∀ (c : Config) (m n : Nat) (s : State),
    runFor c (m + n) s = runFor c n (runFor c m s) ∧
    ((runFor c m s).status = .halted → runFor c (m + n) s = runFor c m s)

/-! ### The instructions: each completes, with its result, its pc and everything it leaves unchanged -/

/-- R85: LDI's second operand byte is the value itself, any byte 0 to 255. LDI puts it in the register, leaves everything
else, and advances the pc by exactly 3. It holds for register 7 as for any other. -/
def Obligations.LdiLoadsItsOperandByte : Prop :=
  (∀ (s : State) (r : RegIndex) (v : Byte), ∃ t, exec (.ldi r v) s = .next t ∧ t.reg r = v ∧ SameRegsBut [r] s t ∧
    (s.pc.toNat + 3 ≤ 256 → t.pc.toNat = s.pc.toNat + 3) ∧
    t.flags = s.flags ∧ SameControl s t ∧ t.out = s.out ∧ SameMemory s t) ∧
  (∀ (c : Config) (s : State) (r : RegIndex) (v : Byte), c.Ok → s.status = .running →
    s.HasCode [c.opcodeMap .ldi, regByte r, v] → cycle c s = exec (.ldi r v) s)

/-- R132, with the wrap of R131 (D2): ADD writes the sum modulo 256 to its first operand and nothing else but the
pc, which advances by 3. -/
def Obligations.AddWritesSumModulo256 : Prop :=
  ∀ (s : State) (a b : RegIndex), ∃ t, exec (.add a b) s = .next t ∧
    (t.reg a).toNat = ((s.reg a).toNat + (s.reg b).toNat) % 256 ∧ SameRegsBut [a] s t ∧
    (s.pc.toNat + 3 ≤ 256 → t.pc.toNat = s.pc.toNat + 3) ∧
    t.flags = s.flags ∧ SameControl s t ∧ t.out = s.out ∧ SameMemory s t

/-- R133, with the wrap of R131 (D2): MUL writes the product modulo 256 to its first operand and nothing else but
the pc, which advances by 3. -/
def Obligations.MulWritesProductModulo256 : Prop :=
  ∀ (s : State) (a b : RegIndex), ∃ t, exec (.mul a b) s = .next t ∧
    (t.reg a).toNat = ((s.reg a).toNat * (s.reg b).toNat) % 256 ∧ SameRegsBut [a] s t ∧
    (s.pc.toNat + 3 ≤ 256 → t.pc.toNat = s.pc.toNat + 3) ∧
    t.flags = s.flags ∧ SameControl s t ∧ t.out = s.out ∧ SameMemory s t

/-- R134 (D18): SUB writes the difference modulo 256 to its first operand and nothing else but the pc, which advances by 3; a
machine with HAS_SUB runs it at byte A1, and this hardware raises UnknownInstruction there (C1). -/
def Obligations.SubWritesDifferenceModulo256 : Prop :=
  (∀ (s : State) (a b : RegIndex), ∃ t, exec (.sub a b) s = .next t ∧
    (t.reg a).toNat = ((s.reg a).toNat + 256 - (s.reg b).toNat) % 256 ∧ SameRegsBut [a] s t ∧
    (s.pc.toNat + 3 ≤ 256 → t.pc.toNat = s.pc.toNat + 3) ∧
    t.flags = s.flags ∧ SameControl s t ∧ t.out = s.out ∧ SameMemory s t) ∧
  (∀ (s : State) (a b : RegIndex), s.status = .running → s.HasCode [0xA1, regByte a, regByte b] →
    cycle Config.withSub s = exec (.sub a b) s ∧ step s = .next (s.raise (.unknownInstruction 0xA1)))

/-- R135, R136 (D16): CMP sets E, L, G by the unsigned order of its operands, the first on the left, whatever the flags were,
and writes nothing else but the pc, which advances by 3. -/
def Obligations.CmpSetsFlagsByUnsignedOrder : Prop :=
  ∀ (s : State) (a b : RegIndex), ∃ t, exec (.cmp a b) s = .next t ∧
    ((s.reg a).toNat = (s.reg b).toNat → t.flags = ⟨true, false, false⟩) ∧
    ((s.reg a).toNat < (s.reg b).toNat → t.flags = ⟨false, true, false⟩) ∧
    ((s.reg a).toNat > (s.reg b).toNat → t.flags = ⟨false, false, true⟩) ∧
    SameRegsBut [] s t ∧ (s.pc.toNat + 3 ≤ 256 → t.pc.toNat = s.pc.toNat + 3) ∧
    SameControl s t ∧ t.out = s.out ∧ SameMemory s t

/-- R152: PRN appends the register's value to OUT, changes no other state but the pc, and appends nothing where its step
faults. -/
def Obligations.PrnAppendsItsRegister : Prop :=
  (∀ (s : State) (r : RegIndex), ∃ t, exec (.prn r) s = .next t ∧ t.out = s.out ++ [s.reg r] ∧
    SameRegsBut [] s t ∧ (s.pc.toNat + 2 ≤ 256 → t.pc.toNat = s.pc.toNat + 2) ∧
    t.flags = s.flags ∧ SameControl s t ∧ SameMemory s t) ∧
  (∀ (s : State) (b : Byte), s.status = .running → s.HasCode [0x47, b] → 8 ≤ b.toNat →
    ∃ t, step s = .next t ∧ t.cause = .registerOutOfRange ∧ t.out = s.out) ∧
  (∀ s : State, s.status = .running → s.pc.toNat = 255 → s.mem.read 255 = 0x47 →
    ∃ t, step s = .next t ∧ t.cause = .addressOutOfRange ∧ t.out = s.out)

/-- R165 (D17 for register 7): with SP other than 0, PUSH decrements SP and stores at the new SP the register, read after the
decrement. The value stored is stated for memories in canonical form, which every step keeps. -/
def Obligations.PushStoresBelowTheStackTop : Prop :=
  ∀ (s : State) (r : RegIndex), s.sp ≠ 0 → ∃ t, exec (.push r) s = .next t ∧
    t.sp.toNat = s.sp.toNat - 1 ∧ SameRegsBut [Config.spIndex] s t ∧
    s.pushAddress = s.sp.toNat - 1 ∧
    (s.mem.wf = true → t.mem.read s.pushAddress = if r = Config.spIndex then s.sp - 1 else s.reg r) ∧
    (∀ x : Nat, x ≠ s.pushAddress → t.mem.read x = s.mem.read x) ∧
    (s.pc.toNat + 2 ≤ 256 → t.pc.toNat = s.pc.toNat + 2) ∧
    t.flags = s.flags ∧ SameControl s t ∧ t.out = s.out

/-- R166, R163 (D13, D17): with SP other than 255, POP loads the byte at SP and increments SP, at any SP, 244 included; POP
R7 increments the value it loaded, where that is not 255. The popped cell keeps its value. -/
def Obligations.PopLoadsTheStackTop : Prop :=
  ∀ (s : State) (r : RegIndex), s.sp ≠ 255 → ¬(r = Config.spIndex ∧ s.mem.read s.popAddress = 255) →
    ∃ t, exec (.pop r) s = .next t ∧ s.popAddress = s.sp.toNat ∧
      (r ≠ Config.spIndex → t.reg r = s.mem.read s.popAddress ∧ t.sp.toNat = s.sp.toNat + 1) ∧
      (r = Config.spIndex → t.sp.toNat = (s.mem.read s.popAddress).toNat + 1) ∧
      SameRegsBut [r, Config.spIndex] s t ∧
      (s.pc.toNat + 2 ≤ 256 → t.pc.toNat = s.pc.toNat + 2) ∧
      t.flags = s.flags ∧ SameControl s t ∧ t.out = s.out ∧ SameMemory s t

/-- R167 (D17 for register 7): where the return address is a byte and SP is not 0, CALL pushes `pc + 2` and jumps to the
register, read after the push. -/
def Obligations.CallPushesReturnAddressAndJumps : Prop :=
  ∀ (s : State) (r : RegIndex), s.pc.toNat + 2 ≤ 255 → s.sp ≠ 0 → ∃ t, exec (.call r) s = .next t ∧
    t.sp.toNat = s.sp.toNat - 1 ∧ SameRegsBut [Config.spIndex] s t ∧
    (s.mem.wf = true → (t.mem.read s.pushAddress).toNat = s.pc.toNat + 2) ∧
    (∀ x : Nat, x ≠ s.pushAddress → t.mem.read x = s.mem.read x) ∧
    t.pc.toNat = (if r = Config.spIndex then s.sp.toNat - 1 else (s.reg r).toNat) ∧
    t.flags = s.flags ∧ SameControl s t ∧ t.out = s.out

/-- R168 (D12, D13 for where it does not fault): with SP other than 255, RET jumps to the byte at SP and increments SP. -/
def Obligations.RetJumpsToTheStackTop : Prop :=
  ∀ s : State, s.sp ≠ 255 → ∃ t, exec .ret s = .next t ∧
    t.pc.toNat = (s.mem.read s.sp.toNat).toNat ∧ t.sp.toNat = s.sp.toNat + 1 ∧
    SameRegsBut [Config.spIndex] s t ∧ t.flags = s.flags ∧ SameControl s t ∧ t.out = s.out ∧ SameMemory s t

/-- R181: JMP goes to the register's value, any value, and changes nothing but the pc. -/
def Obligations.JmpGoesToTheRegister : Prop :=
  ∀ (s : State) (r : RegIndex), ∃ t, exec (.jmp r) s = .next t ∧ t.pc.toNat = (s.reg r).toNat ∧
    SameRegsBut [] s t ∧ t.flags = s.flags ∧ SameControl s t ∧ t.out = s.out ∧ SameMemory s t

/-- R182: JEQ goes to the register's value where E is 1, else to the next instruction, and changes nothing but the pc. -/
def Obligations.JeqIsTakenWhenEqual : Prop :=
  ∀ (s : State) (r : RegIndex), ∃ t, exec (.jeq r) s = .next t ∧
    (s.flags.e = true → t.pc.toNat = (s.reg r).toNat) ∧
    (s.flags.e = false → s.pc.toNat + 2 ≤ 256 → t.pc.toNat = s.pc.toNat + 2) ∧
    SameRegsBut [] s t ∧ t.flags = s.flags ∧ SameControl s t ∧ t.out = s.out ∧ SameMemory s t

/-- R183: JNE goes to the register's value where E is 0, whatever L and G are, else to the next instruction, and changes
nothing but the pc. -/
def Obligations.JneIsTakenWhenNotEqual : Prop :=
  ∀ (s : State) (r : RegIndex), ∃ t, exec (.jne r) s = .next t ∧
    (s.flags.e = false → t.pc.toNat = (s.reg r).toNat) ∧
    (s.flags.e = true → s.pc.toNat + 2 ≤ 256 → t.pc.toNat = s.pc.toNat + 2) ∧
    SameRegsBut [] s t ∧ t.flags = s.flags ∧ SameControl s t ∧ t.out = s.out ∧ SameMemory s t

/-- R190 (D19 for the pc): HLT sets STATUS to Halted, leaves CAUSE, and advances the pc by 1, from 255 to 256 too. -/
def Obligations.HltHaltsAndAdvances : Prop :=
  ∀ s : State, ∃ t, exec .hlt s = .next t ∧ t.status = .halted ∧ t.cause = s.cause ∧ t.info = s.info ∧
    (s.pc.toNat + 1 ≤ 256 → t.pc.toNat = s.pc.toNat + 1) ∧
    SameRegsBut [] s t ∧ t.flags = s.flags ∧ t.out = s.out ∧ SameMemory s t

/-! ### The stack's own faults -/

/-- R161 (D11): PUSH and CALL at SP = 0 raise StackOverflow and change nothing else. -/
def Obligations.PushAndCallOverflowAtZero : Prop :=
  ∀ (s : State) (r : RegIndex), s.sp = 0 →
    (∃ t, exec (.push r) s = .next t ∧ FaultOnly s t ∧ t.cause = .stackOverflow ∧ t.info = 0) ∧
    (s.pc.toNat + 2 ≤ 255 →
      ∃ t, exec (.call r) s = .next t ∧ FaultOnly s t ∧ t.cause = .stackOverflow ∧ t.info = 0)

/-- R162 and the second check of R166 (D12, D17): POP and RET at SP = 255, and POP R7 where it would load 255, raise
StackUnderflow and change nothing else. -/
def Obligations.PopAndRetUnderflowAtTheTop : Prop :=
  ∀ s : State,
    (s.sp = 255 → ∃ t, exec .ret s = .next t ∧ FaultOnly s t ∧ t.cause = .stackUnderflow ∧ t.info = 0) ∧
    (∀ r : RegIndex, s.sp = 255 ∨ (r = Config.spIndex ∧ s.mem.read s.sp.toNat = 255) →
      ∃ t, exec (.pop r) s = .next t ∧ FaultOnly s t ∧ t.cause = .stackUnderflow ∧ t.info = 0)

/-- R164 and R117 (D14, D8): a CALL whose return address is 256 raises AddressOutOfRange(256), whatever SP is, and changes
nothing else. -/
def Obligations.CallNeedsAByteReturnAddress : Prop :=
  ∀ (s : State) (r : RegIndex), s.pc.toNat = 254 →
    ∃ t, exec (.call r) s = .next t ∧ FaultOnly s t ∧ t.cause = .addressOutOfRange ∧ t.info.toNat = 256

/-! ### Laws of pairs of instructions -/

/-- The push/pop inverse law of R166: PUSH r and then POP r restore every register, SP and r = 7 included. -/
def Obligations.PushThenPopRestores : Prop :=
  ∀ (s : State) (r : RegIndex), s.mem.wf = true → s.sp ≠ 0 →
    ∃ t u, exec (.push r) s = .next t ∧ exec (.pop r) t = .next u ∧ ∀ q : RegIndex, u.reg q = s.reg q

/-- The call/return symmetry of R168: after a CALL, a RET at any state with the SP that CALL left and the pushed byte still
in place goes to the instruction after the CALL, with SP as before it. -/
def Obligations.RetReturnsBehindItsCall : Prop :=
  ∀ (s : State) (r : RegIndex), s.mem.wf = true → s.pc.toNat + 2 ≤ 255 → s.sp ≠ 0 →
    ∃ t, exec (.call r) s = .next t ∧
      ∀ v : State, v.sp = t.sp → v.mem.read v.sp.toNat = t.mem.read t.sp.toNat →
        ∃ u, exec .ret v = .next u ∧ u.pc.toNat = s.pc.toNat + 2 ∧ u.sp = s.sp

/-- R184 (derived there): at every state exactly one of JEQ and JNE is taken. -/
def Obligations.ExactlyOneOfJeqAndJneIsTaken : Prop :=
  ∀ (s : State) (r : RegIndex), s.pc.toNat + 2 ≤ 256 →
    ∃ t u, exec (.jeq r) s = .next t ∧ exec (.jne r) s = .next u ∧
      ((t.pc.toNat = (s.reg r).toNat ∧ u.pc.toNat = s.pc.toNat + 2) ∨
       (t.pc.toNat = s.pc.toNat + 2 ∧ u.pc.toNat = (s.reg r).toNat))

/-- R61 (D20): the byte that a PUSH stores at the address of the next instruction, or a CALL at the address it jumps to, is
the opcode the next step decodes, whatever byte it is: an unknown one faults with it, and of a known one the next step runs
the operation (`RunsOpcode`); a pushed HLT runs. PUSH R7 plants the decremented SP, and a CALL its return address
(D17). Stated for memories in canonical form, which every step keeps. -/
def Obligations.PushedByteIsFetchedByTheNextStep : Prop :=
  ∀ (c : Config) (s : State) (r : RegIndex) (v : Byte), c.Ok → s.status = .running → s.mem.wf = true →
    (s.HasCode (encode c (.push r)) → s.sp.toNat = s.pc.toNat + 3 →
      v = (if r = Config.spIndex then s.sp - 1 else s.reg r) →
      ∃ t, cycle c s = .next t ∧ t.pc.toNat = s.pc.toNat + 2 ∧ t.mem.read t.pc.toNat = v ∧ RunsOpcode c t v ∧
        (v = c.opcodeMap .hlt → cycle c t = exec .hlt t)) ∧
    (s.HasCode (encode c (.call r)) → s.pc.toNat + 2 ≤ 255 → s.sp ≠ 0 →
      (if r = Config.spIndex then s.sp - 1 else s.reg r).toNat = s.sp.toNat - 1 → v.toNat = s.pc.toNat + 2 →
      ∃ t, cycle c s = .next t ∧ t.pc.toNat = s.sp.toNat - 1 ∧ t.mem.read t.pc.toNat = v ∧ RunsOpcode c t v)

/-! ### Reset and the host -/

/-- R37 (D3, D4, D5, D10, D27 for the values the source does not give): the state after reset. -/
def Obligations.ResetLeavesTheStatedValues : Prop :=
  (∀ r : RegIndex, (State.reset.reg r).toNat = if r = 7 then 244 else 0) ∧
  State.reset.pc = 0 ∧ State.reset.flags = ⟨false, false, false⟩ ∧ State.reset.status = .halted ∧
  State.reset.cause = .none ∧ State.reset.info = 0 ∧ (∀ a, State.reset.mem.read a = 0) ∧ State.reset.out = []

/-- R241 to R244 (D5, D25): an image of at most 256 bytes and no other can be launched; byte k of it is at address k, every
other cell is 0, the pc is 0, and everything but memory and STATUS is as reset left it. -/
def Obligations.LaunchPlacesTheImage : Prop :=
  ∀ img : List Byte,
    (img.length ≤ 256 ↔ ∃ s, launch img = some s) ∧
    ∀ s, launch img = some s →
      (∀ (k : Nat) (b : Byte), img[k]? = some b → s.mem.read k = b) ∧
      (∀ k : Nat, img.length ≤ k → s.mem.read k = 0) ∧
      s.pc.toNat = 0 ∧ s.status = .running ∧ SameRegsBut [] State.reset s ∧ s.flags = State.reset.flags ∧
      s.cause = State.reset.cause ∧ s.info = State.reset.info ∧ s.out = State.reset.out

/-- R100: a program text, one 8-character binary literal a line, comments and blank lines anywhere, is the image of its
literals in order, and the k-th of them lands at address k. White space after a literal, and on a line with no literal, is
the model's reading (log entry 9). -/
def Obligations.ProgramTextIsItsLiterals : Prop :=
  ∀ ls : List ProgramLine, (∀ l ∈ ls, l.Valid) →
    parseProgram (joinLines (ls.map ProgramLine.chars)) = some (ls.filterMap ProgramLine.byte) ∧
    ∀ s, launch (ls.filterMap ProgramLine.byte) = some s →
      ∀ (k : Nat) (b : Byte), (ls.filterMap ProgramLine.byte)[k]? = some b → s.mem.read k = b

/-- R38, R39, R240, R242, R246 (D21, D27): what a host that began at a fresh session may do, and nothing else. Reset when Halted,
to a fresh session, and after a run only that; nothing while the core runs; after reset load an image of at most 256 bytes
(R244); after the load run, which sets STATUS and nothing else. Load and run from a fresh session reach the launch state, and
no core runs before `run`. That a move out of this order has no result is the model's reading (log entry 8). -/
def Obligations.HostMovesExactlyWhenItMay : Prop :=
  (∀ x : Session, (x.phase ≠ .started → x.core.status = .halted) →
    (x.core.status = .running → ∀ m, x.act m = none) ∧
    (x.core.status = .halted → x.act .reset = some Session.fresh) ∧
    (x.phase = .fresh → x.act .run = none ∧ ∀ img : List Byte,
      (img.length ≤ 256 → ∃ s, x.core.load img = some s ∧ x.act (.load img) = some { phase := .loaded, core := s }) ∧
      (256 < img.length → x.act (.load img) = none)) ∧
    (x.phase = .loaded → (∀ img, x.act (.load img) = none) ∧
      x.act .run = some { phase := .started, core := { x.core with status := .running } }) ∧
    (x.phase = .started → x.core.status = .halted → ∀ m y, x.act m = some y → m = .reset ∧ y = Session.fresh) ∧
    (∀ m y, x.act m = some y → y.phase ≠ .started → y.core.status = .halted)) ∧
  ∀ (img : List Byte) (s : State), launch img = some s →
    ∃ x, Session.fresh.act (.load img) = some x ∧ x.act .run = some { phase := .started, core := s }

/-! ### The whole machine -/

/-- R37, R42: the invariant holds after reset. -/
def Obligations.ResetMeetsTheInvariant : Prop := State.reset.Inv

/-- R42 (derived there; the memory's canonical form is the model's): every step of every machine keeps the invariant. -/
def Obligations.EveryStepKeepsTheInvariant : Prop :=
  ∀ (c : Config) (s t : State), c.Ok → s.Inv → cycle c s = .next t → t.Inv

/-- R242, R42: every image's launch state meets the invariant, and so does every state reached from one. Two of the
invariant's clauses, the memory's canonical form and INFO = 0 while CAUSE = 0, are the model's (log entry 10). -/
def Obligations.EveryReachedStateMeetsTheInvariant : Prop :=
  ∀ (c : Config) (img : List Byte) (s t : State), c.Ok → launch img = some s → Reaches c s t → t.Inv

/-- R208, R206 (D9): a step that ends with a CAUSE has changed nothing but STATUS, CAUSE and INFO, and the pc is still at the
faulting instruction. -/
def Obligations.FaultsArePrecise : Prop :=
  ∀ (c : Config) (s t : State), s.cause = .none → cycle c s = .next t → t.cause ≠ .none →
    t = { s with status := .halted, cause := t.cause, info := t.info }

/-- R200, R202 (D10): what each CAUSE a step can end with says of the state and of INFO. -/
def Obligations.CausesSayWhatHappened : Prop :=
  ∀ (c : Config) (s t : State), c.Ok → s.Inv → s.cause = .none → cycle c s = .next t →
    (t.cause = .unknownInstruction →
      c.lookup (s.mem.read s.pc.toNat) = none ∧ t.info.toNat = (s.mem.read s.pc.toNat).toNat) ∧
    (t.cause = .addressOutOfRange → t.info.toNat = 256 ∧ 254 ≤ s.pc.toNat) ∧
    (t.cause = .registerOutOfRange → 8 ≤ t.info.toNat ∧ t.info.toNat ≤ 255) ∧
    (t.cause = .stackOverflow → t.info = 0 ∧ s.sp = 0) ∧
    (t.cause = .stackUnderflow → t.info = 0 ∧ (s.sp = 255 ∨ s.mem.read s.sp.toNat = 255)) ∧
    t.cause ≠ .unsupportedOperation

/-- R122 (derived there): no step raises UnsupportedOperation, from any state, whatever the memory holds. -/
def Obligations.UnsupportedOperationIsUnreachable : Prop :=
  ∀ (c : Config) (s t : State), cycle c s = .next t → t.cause = .unsupportedOperation → s.cause = .unsupportedOperation

/-- R34, R152: OUT is empty at reset; a step that runs PRN appends its register's value, and any other appends nothing; and
nothing reads OUT back: with any other content the step is the same. That the host renders a value as its decimal digits and a
newline, after everything before, is R41 with D22. -/
def Obligations.OutputOnlyGrowsByPrnAndIsNeverRead : Prop :=
  State.reset.out = [] ∧
  ∀ (c : Config) (s t : State), c.Ok → cycle c s = .next t →
    ∃ new : List Byte, t.out = s.out ++ new ∧
      (new = [] ∨ ∃ r : RegIndex, s.HasCode (encode c (.prn r)) ∧ new = [s.reg r]) ∧
      (∀ r : RegIndex, s.HasCode (encode c (.prn r)) → new = [s.reg r]) ∧
      t.printed = s.printed ++ new.flatMap (fun v => decimal v ++ [Char.ofNat 0x0A]) ∧
      ∀ o : List Byte, cycle c { s with out := o } = .next { t with out := o ++ new }

/-- R21 (derived there): a step changes no register but those the table gives the instruction it runs, one the machine
has. -/
def Obligations.RegistersChangeOnlyByTheirInstructions : Prop :=
  ∀ (c : Config) (s t : State), c.Ok → cycle c s = .next t → ∀ q : RegIndex,
    t.reg q = s.reg q ∨ ∃ i : Instr, i.wellFormed c = true ∧ s.HasCode (encode c i) ∧ q ∈ writtenRegs i

/-- R28: a step leaves the flags, or is a CMP, after which exactly one flag is 1. -/
def Obligations.FlagsChangeOnlyByCmp : Prop :=
  ∀ (c : Config) (s t : State), c.Ok → cycle c s = .next t →
    t.flags = s.flags ∨
    ((∃ a b : RegIndex, s.HasCode (encode c (.cmp a b))) ∧
      (t.flags = ⟨true, false, false⟩ ∨ t.flags = ⟨false, true, false⟩ ∨ t.flags = ⟨false, false, true⟩))

/-- R28: "FL.L and FL.G are read by no instruction". Two states that differ in them alone take the same step: to states that
differ in them alone, or, by CMP, to the same state. Where STATUS is Halted no step is defined from either; that its outcome
is `Fault.halted` is the model's choice (log entry 3). -/
def Obligations.LessAndGreaterAreNeverRead : Prop :=
  ∀ (c : Config) (s : State) (l g : Bool), c.Ok →
    (s.status = .halted → cycle c (s.withLessGreater l g) = .fault .halted) ∧
    ∀ t, cycle c s = .next t →
      cycle c (s.withLessGreater l g) = .next (t.withLessGreater l g) ∨
      ((∃ a b : RegIndex, s.HasCode (encode c (.cmp a b))) ∧ cycle c (s.withLessGreater l g) = .next t)

/-- R56, R53 (derived there): a step changes at most the one byte at `SP - 1`, and that by PUSH or CALL only. -/
def Obligations.MemoryChangesOnlyByPushAndCall : Prop :=
  ∀ (c : Config) (s t : State), c.Ok → cycle c s = .next t → ∀ x : Nat,
    t.mem.read x = s.mem.read x ∨
    (x = s.pushAddress ∧ ∃ r : RegIndex, s.HasCode (encode c (.push r)) ∨ s.HasCode (encode c (.call r)))

/-- R26 (D19 for HLT, D17 for CALL R7): the pc after every step, by the instruction it runs, one the machine has. -/
def Obligations.PcAfterEveryStep : Prop :=
  ∀ (c : Config) (s t : State), c.Ok → cycle c s = .next t →
    (∃ f, t = s.raise f ∧ t.pc = s.pc) ∨
    ∃ i : Instr, i.wellFormed c = true ∧ s.HasCode (encode c i) ∧ t.pc.toNat =
      match i with
      | .hlt => s.pc.toNat + 1
      | .ret => (s.mem.read s.sp.toNat).toNat
      | .prn _ | .push _ | .pop _ => s.pc.toNat + 2
      | .call r => if r = Config.spIndex then s.sp.toNat - 1 else (s.reg r).toNat
      | .jmp r => (s.reg r).toNat
      | .jeq r => if s.flags.e then (s.reg r).toNat else s.pc.toNat + 2
      | .jne r => if s.flags.e then s.pc.toNat + 2 else (s.reg r).toNat
      | .ldi _ _ | .add _ _ | .mul _ _ | .cmp _ _ | .sub _ _ => s.pc.toNat + 3
end

