-- ==== Sys2Proof/Laws/Memory.lean ====
section
/-! SUPPORT. The memory laws: a read after a write, and that every memory operation keeps the canonical form. -/

namespace Sys2Proof.Machine

/-- A lower bound may be lowered. -/
theorem Memory.wfFrom_mono {lo lo' : Nat} (h : lo' ≤ lo) : ∀ {m : Memory}, m.wfFrom lo = true → m.wfFrom lo' = true
  | [], _ => rfl
  | (a, v) :: m, hm => by
    simp only [Memory.wfFrom, Bool.and_eq_true, decide_eq_true_eq] at hm ⊢
    exact ⟨⟨⟨by omega, hm.1.1.2⟩, hm.1.2⟩, hm.2⟩

/-- An address below every listed one reads as the reset value. -/
theorem Memory.read_below {a : Nat} : ∀ {m : Memory} {lo : Nat}, m.wfFrom lo = true → a < lo → m.read a = Config.memReset
  | [], _, _, _ => rfl
  | (b, v) :: m, lo, hm, h => by
    simp only [Memory.wfFrom, Bool.and_eq_true, decide_eq_true_eq] at hm
    rw [Memory.read, if_neg (by omega)]
    exact Memory.read_below hm.2 (by omega)

/-- Reading the cells `(a, v)` and then `m` at `a`. -/
theorem Memory.read_cons_same {a : Nat} {v : Byte} {m : Memory} (hm : m.wfFrom (a + 1) = true) :
    (Memory.cons a v m).read a = v := by
  unfold Memory.cons
  split
  · next h => rw [h]; exact Memory.read_below hm (by omega)
  · simp [Memory.read]

/-- Reading the cells `(a, v)` and then `m` elsewhere. -/
theorem Memory.read_cons_other {a c : Nat} {v : Byte} {m : Memory} (h : c ≠ a) :
    (Memory.cons a v m).read c = m.read c := by
  unfold Memory.cons
  split
  · rfl
  · simp [Memory.read, h]

theorem Memory.wfFrom_cons {lo a : Nat} {v : Byte} {m : Memory} (hlo : lo ≤ a) (ha : a < Config.memSize)
    (hm : m.wfFrom (a + 1) = true) : (Memory.cons a v m).wfFrom lo = true := by
  unfold Memory.cons
  split
  · exact Memory.wfFrom_mono (by omega) hm
  · next h => simp [Memory.wfFrom, hlo, ha, h, hm]

/-- A read after a write to the same address gives the value written, in canonical form. -/
theorem Memory.read_write_same {a : Nat} {v : Byte} :
    ∀ {m : Memory} {lo : Nat}, m.wfFrom lo = true → (m.write a v).read a = v
  | [], _, _ => Memory.read_cons_same rfl
  | (b, w) :: m, lo, hm => by
    have hm' := hm
    simp only [Memory.wfFrom, Bool.and_eq_true, decide_eq_true_eq] at hm
    unfold Memory.write
    split
    · next h => exact Memory.read_cons_same (by
        simp only [Memory.wfFrom, Bool.and_eq_true, decide_eq_true_eq]
        exact ⟨⟨⟨h, hm.1.1.2⟩, hm.1.2⟩, hm.2⟩)
    · split
      · next h => subst h; exact Memory.read_cons_same hm.2
      · next h =>
        rw [Memory.read, if_neg h]
        exact Memory.read_write_same hm.2

/-- A write leaves every other address alone. -/
theorem Memory.read_write_other {a c : Nat} {v : Byte} (h : c ≠ a) :
    ∀ {m : Memory}, (m.write a v).read c = m.read c
  | [] => Memory.read_cons_other h
  | (b, w) :: m => by
    unfold Memory.write
    split
    · exact Memory.read_cons_other h
    · split
      · next hb => rw [Memory.read_cons_other h, Memory.read, if_neg (by omega)]
      · simp [Memory.read, Memory.read_write_other h (m := m)]

theorem Memory.wfFrom_write {a : Nat} {v : Byte} (ha : a < Config.memSize) :
    ∀ {m : Memory} {lo : Nat}, lo ≤ a → m.wfFrom lo = true → (m.write a v).wfFrom lo = true
  | [], _, hlo, _ => Memory.wfFrom_cons hlo ha rfl
  | (b, w) :: m, lo, hlo, hm => by
    simp only [Memory.wfFrom, Bool.and_eq_true, decide_eq_true_eq] at hm
    unfold Memory.write
    split
    · next h => exact Memory.wfFrom_cons hlo ha (by
        simp only [Memory.wfFrom, Bool.and_eq_true, decide_eq_true_eq]
        exact ⟨⟨⟨h, hm.1.1.2⟩, hm.1.2⟩, hm.2⟩)
    · split
      · next h => subst h; exact Memory.wfFrom_cons hlo ha hm.2
      · next h h' =>
        simp only [Memory.wfFrom, Bool.and_eq_true, decide_eq_true_eq]
        exact ⟨⟨⟨hm.1.1.1, hm.1.1.2⟩, hm.1.2⟩, Memory.wfFrom_write ha (by omega) hm.2⟩

/-- A write inside the address space keeps the canonical form. -/
theorem Memory.wf_write {m : Memory} {a : Nat} (v : Byte) (ha : a < Config.memSize) (hm : m.wf = true) :
    (m.write a v).wf = true := Memory.wfFrom_write ha (Nat.zero_le a) hm

/-- Writing a run of bytes inside the address space keeps the canonical form. -/
theorem Memory.wf_writeFrom : ∀ {bs : List Byte} {m : Memory} {a : Nat}, a + bs.length ≤ Config.memSize →
    m.wf = true → (m.writeFrom a bs).wf = true
  | [], _, _, _, hm => hm
  | b :: bs, m, a, h, hm => by
    rw [List.length_cons] at h
    rw [Memory.writeFrom]
    exact Memory.wf_writeFrom (by omega) (Memory.wf_write b (by omega) hm)

/-- A run of bytes leaves the addresses outside it alone. -/
theorem Memory.read_writeFrom_outside {c : Nat} : ∀ {bs : List Byte} {m : Memory} {a : Nat},
    c < a ∨ a + bs.length ≤ c → (m.writeFrom a bs).read c = m.read c
  | [], _, _, _ => rfl
  | b :: bs, m, a, h => by
    rw [List.length_cons] at h
    rw [Memory.writeFrom, Memory.read_writeFrom_outside (by omega), Memory.read_write_other (by omega)]

/-- Byte `k` of a run of bytes stands at address `a + k`. -/
theorem Memory.read_writeFrom_inside {b : Byte} : ∀ {bs : List Byte} {m : Memory} {a k : Nat},
    m.wf = true → a + bs.length ≤ Config.memSize → bs[k]? = some b → (m.writeFrom a bs).read (a + k) = b
  | [], _, _, _, _, _, hk => by simp at hk
  | x :: bs, m, a, k, hm, h, hk => by
    rw [List.length_cons] at h
    cases k with
    | zero =>
      obtain rfl : x = b := by simpa using hk
      rw [Memory.writeFrom, Memory.read_writeFrom_outside (by omega)]
      exact Memory.read_write_same hm
    | succ k =>
      rw [Memory.writeFrom, show a + (k + 1) = a + 1 + k by omega]
      exact Memory.read_writeFrom_inside (Memory.wf_write x (by omega) hm) (by omega) (by simpa using hk)

/-- A cell that is not listed reads as the reset value. -/
@[simp] theorem Memory.read_nil (a : Nat) : Memory.read [] a = Config.memReset := rfl

/-- The memory after reset is in canonical form. -/
@[simp] theorem State.reset_mem_wf : State.reset.mem.wf = true := rfl

end Sys2Proof.Machine
end

