-- ==== Sys2Proof/Laws/State.lean ====
section
/-! SUPPORT. What each named update does to each field of the state: one lemma per field per update, so that no proof
unfolds a record update. -/

namespace Sys2Proof.Machine

section
variable (s : State) (r : RegIndex) (v : Byte)

@[simp] theorem State.setReg_pc : (s.setReg r v).pc = s.pc := rfl
@[simp] theorem State.setReg_flags : (s.setReg r v).flags = s.flags := rfl
@[simp] theorem State.setReg_status : (s.setReg r v).status = s.status := rfl
@[simp] theorem State.setReg_cause : (s.setReg r v).cause = s.cause := rfl
@[simp] theorem State.setReg_info : (s.setReg r v).info = s.info := rfl
@[simp] theorem State.setReg_mem : (s.setReg r v).mem = s.mem := rfl
@[simp] theorem State.setReg_out : (s.setReg r v).out = s.out := rfl

end

section
variable (s : State) (v : Byte)

@[simp] theorem State.setSp_pc : (s.setSp v).pc = s.pc := rfl
@[simp] theorem State.setSp_flags : (s.setSp v).flags = s.flags := rfl
@[simp] theorem State.setSp_status : (s.setSp v).status = s.status := rfl
@[simp] theorem State.setSp_cause : (s.setSp v).cause = s.cause := rfl
@[simp] theorem State.setSp_info : (s.setSp v).info = s.info := rfl
@[simp] theorem State.setSp_mem : (s.setSp v).mem = s.mem := rfl
@[simp] theorem State.setSp_out : (s.setSp v).out = s.out := rfl

end

section
variable (s : State) (op : AluOp) (a b : RegIndex)

@[simp] theorem State.aluWrite_pc : (s.aluWrite op a b).pc = s.pc := rfl
@[simp] theorem State.aluWrite_flags : (s.aluWrite op a b).flags = s.flags := rfl
@[simp] theorem State.aluWrite_status : (s.aluWrite op a b).status = s.status := rfl
@[simp] theorem State.aluWrite_cause : (s.aluWrite op a b).cause = s.cause := rfl
@[simp] theorem State.aluWrite_info : (s.aluWrite op a b).info = s.info := rfl
@[simp] theorem State.aluWrite_mem : (s.aluWrite op a b).mem = s.mem := rfl
@[simp] theorem State.aluWrite_out : (s.aluWrite op a b).out = s.out := rfl

end

section
variable (s : State)

@[simp] theorem State.closeSlot_pc : (s.closeSlot).pc = s.pc := rfl
@[simp] theorem State.closeSlot_flags : (s.closeSlot).flags = s.flags := rfl
@[simp] theorem State.closeSlot_status : (s.closeSlot).status = s.status := rfl
@[simp] theorem State.closeSlot_cause : (s.closeSlot).cause = s.cause := rfl
@[simp] theorem State.closeSlot_info : (s.closeSlot).info = s.info := rfl
@[simp] theorem State.closeSlot_mem : (s.closeSlot).mem = s.mem := rfl
@[simp] theorem State.closeSlot_out : (s.closeSlot).out = s.out := rfl

end

section
variable (s : State) (a : Nat) (v : Byte)

@[simp] theorem State.putByte_regs : (s.putByte a v).regs = s.regs := rfl
@[simp] theorem State.putByte_pc : (s.putByte a v).pc = s.pc := rfl
@[simp] theorem State.putByte_flags : (s.putByte a v).flags = s.flags := rfl
@[simp] theorem State.putByte_status : (s.putByte a v).status = s.status := rfl
@[simp] theorem State.putByte_cause : (s.putByte a v).cause = s.cause := rfl
@[simp] theorem State.putByte_info : (s.putByte a v).info = s.info := rfl
@[simp] theorem State.putByte_mem : (s.putByte a v).mem = s.mem.write a v := rfl
@[simp] theorem State.putByte_out : (s.putByte a v).out = s.out := rfl
@[simp] theorem State.putByte_reg (q : RegIndex) : (s.putByte a v).reg q = s.reg q := rfl
@[simp] theorem State.putByte_sp : (s.putByte a v).sp = s.sp := rfl

end

section
variable (s : State) (v : Byte)

@[simp] theorem State.jump_regs : (s.jump v).regs = s.regs := rfl
@[simp] theorem State.jump_pc : (s.jump v).pc = zext9 v := rfl
@[simp] theorem State.jump_flags : (s.jump v).flags = s.flags := rfl
@[simp] theorem State.jump_status : (s.jump v).status = s.status := rfl
@[simp] theorem State.jump_cause : (s.jump v).cause = s.cause := rfl
@[simp] theorem State.jump_info : (s.jump v).info = s.info := rfl
@[simp] theorem State.jump_mem : (s.jump v).mem = s.mem := rfl
@[simp] theorem State.jump_out : (s.jump v).out = s.out := rfl
@[simp] theorem State.jump_reg (q : RegIndex) : (s.jump v).reg q = s.reg q := rfl
@[simp] theorem State.jump_sp : (s.jump v).sp = s.sp := rfl

end

section
variable (s : State) (n : Nat)

@[simp] theorem State.advance_regs : (s.advance n).regs = s.regs := rfl
@[simp] theorem State.advance_pc : (s.advance n).pc = s.pc + BitVec.ofNat 9 (n + 1) := rfl
@[simp] theorem State.advance_flags : (s.advance n).flags = s.flags := rfl
@[simp] theorem State.advance_status : (s.advance n).status = s.status := rfl
@[simp] theorem State.advance_cause : (s.advance n).cause = s.cause := rfl
@[simp] theorem State.advance_info : (s.advance n).info = s.info := rfl
@[simp] theorem State.advance_mem : (s.advance n).mem = s.mem := rfl
@[simp] theorem State.advance_out : (s.advance n).out = s.out := rfl
@[simp] theorem State.advance_reg (q : RegIndex) : (s.advance n).reg q = s.reg q := rfl
@[simp] theorem State.advance_sp : (s.advance n).sp = s.sp := rfl

end

section
variable (s : State) (v : Byte)

@[simp] theorem State.output_regs : (s.output v).regs = s.regs := rfl
@[simp] theorem State.output_pc : (s.output v).pc = s.pc := rfl
@[simp] theorem State.output_flags : (s.output v).flags = s.flags := rfl
@[simp] theorem State.output_status : (s.output v).status = s.status := rfl
@[simp] theorem State.output_cause : (s.output v).cause = s.cause := rfl
@[simp] theorem State.output_info : (s.output v).info = s.info := rfl
@[simp] theorem State.output_mem : (s.output v).mem = s.mem := rfl
@[simp] theorem State.output_out : (s.output v).out = s.out ++ [v] := rfl
@[simp] theorem State.output_reg (q : RegIndex) : (s.output v).reg q = s.reg q := rfl
@[simp] theorem State.output_sp : (s.output v).sp = s.sp := rfl

end

section
variable (s : State)

@[simp] theorem State.halt_regs : (s.halt).regs = s.regs := rfl
@[simp] theorem State.halt_pc : (s.halt).pc = s.pc := rfl
@[simp] theorem State.halt_flags : (s.halt).flags = s.flags := rfl
@[simp] theorem State.halt_status : (s.halt).status = .halted := rfl
@[simp] theorem State.halt_cause : (s.halt).cause = s.cause := rfl
@[simp] theorem State.halt_info : (s.halt).info = s.info := rfl
@[simp] theorem State.halt_mem : (s.halt).mem = s.mem := rfl
@[simp] theorem State.halt_out : (s.halt).out = s.out := rfl
@[simp] theorem State.halt_reg (q : RegIndex) : (s.halt).reg q = s.reg q := rfl
@[simp] theorem State.halt_sp : (s.halt).sp = s.sp := rfl

end

section
variable (s : State) (f : Flags)

@[simp] theorem State.setFlags_regs : (s.setFlags f).regs = s.regs := rfl
@[simp] theorem State.setFlags_pc : (s.setFlags f).pc = s.pc := rfl
@[simp] theorem State.setFlags_flags : (s.setFlags f).flags = f := rfl
@[simp] theorem State.setFlags_status : (s.setFlags f).status = s.status := rfl
@[simp] theorem State.setFlags_cause : (s.setFlags f).cause = s.cause := rfl
@[simp] theorem State.setFlags_info : (s.setFlags f).info = s.info := rfl
@[simp] theorem State.setFlags_mem : (s.setFlags f).mem = s.mem := rfl
@[simp] theorem State.setFlags_out : (s.setFlags f).out = s.out := rfl
@[simp] theorem State.setFlags_reg (q : RegIndex) : (s.setFlags f).reg q = s.reg q := rfl
@[simp] theorem State.setFlags_sp : (s.setFlags f).sp = s.sp := rfl

end

section
variable (s : State)

@[simp] theorem State.start_regs : (s.start).regs = s.regs := rfl
@[simp] theorem State.start_pc : (s.start).pc = s.pc := rfl
@[simp] theorem State.start_flags : (s.start).flags = s.flags := rfl
@[simp] theorem State.start_status : (s.start).status = .running := rfl
@[simp] theorem State.start_cause : (s.start).cause = s.cause := rfl
@[simp] theorem State.start_info : (s.start).info = s.info := rfl
@[simp] theorem State.start_mem : (s.start).mem = s.mem := rfl
@[simp] theorem State.start_out : (s.start).out = s.out := rfl
@[simp] theorem State.start_reg (q : RegIndex) : (s.start).reg q = s.reg q := rfl
@[simp] theorem State.start_sp : (s.start).sp = s.sp := rfl

end

section
variable (s : State) (f : CoreFault)

@[simp] theorem State.raise_regs : (s.raise f).regs = s.regs := rfl
@[simp] theorem State.raise_pc : (s.raise f).pc = s.pc := rfl
@[simp] theorem State.raise_flags : (s.raise f).flags = s.flags := rfl
@[simp] theorem State.raise_status : (s.raise f).status = .halted := rfl
@[simp] theorem State.raise_cause : (s.raise f).cause = f.cause := rfl
@[simp] theorem State.raise_info : (s.raise f).info = f.info := rfl
@[simp] theorem State.raise_mem : (s.raise f).mem = s.mem := rfl
@[simp] theorem State.raise_out : (s.raise f).out = s.out := rfl
@[simp] theorem State.raise_reg (q : RegIndex) : (s.raise f).reg q = s.reg q := rfl
@[simp] theorem State.raise_sp : (s.raise f).sp = s.sp := rfl

end

/-- The register just written reads as written. -/
@[simp] theorem State.reg_setReg_same (s : State) (r : RegIndex) (v : Byte) : (s.setReg r v).reg r = v := by
  simp [State.reg, State.setReg]

/-- Every other register keeps its value. -/
theorem State.reg_setReg_other (s : State) {r q : RegIndex} (v : Byte) (h : q ≠ r) :
    (s.setReg r v).reg q = s.reg q := by
  have h' : r.val ≠ q.val := fun e => h (Fin.ext e.symm)
  simp [State.reg, State.setReg, Vector.getElem_set_ne, h']

/-- Any register after a write to one. -/
theorem State.reg_setReg (s : State) (r q : RegIndex) (v : Byte) :
    (s.setReg r v).reg q = if q = r then v else s.reg q := by
  split
  · next h => subst h; simp
  · next h => exact s.reg_setReg_other v h

/-- SP and `x[7]` are one cell (R22). -/
@[simp] theorem State.setSp_sp (s : State) (v : Byte) : (s.setSp v).sp = v := s.reg_setReg_same _ v

/-- Any register after a write to SP. -/
theorem State.reg_setSp (s : State) (q : RegIndex) (v : Byte) :
    (s.setSp v).reg q = if q = Config.spIndex then v else s.reg q := s.reg_setReg _ q v

/-- Of two writes to one register the later stays. -/
theorem State.setReg_setReg_same (s : State) (r : RegIndex) (v w : Byte) :
    (s.setReg r v).setReg r w = s.setReg r w := by
  simp [State.setReg, Vector.set_set]

end Sys2Proof.Machine
end

