-- ==== Sys2Proof/Laws/Ops.lean ====
section
/-! SUPPORT. One lemma per answer of each shared operation, so that no proof unfolds it. -/

namespace Sys2Proof.Machine

@[simp] theorem State.settle_ok (s t : State) : s.settle (.ok t) = .next t := rfl

@[simp] theorem State.settle_error (s : State) (f : CoreFault) : s.settle (.error f) = .next (s.raise f) := rfl

theorem State.memByte?_of_lt (s : State) {a : Nat} (h : a < 256) : s.memByte? a = some (s.mem.read a) := if_pos h

theorem State.memByte?_of_ge (s : State) {a : Nat} (h : 256 ≤ a) : s.memByte? a = none :=
  if_neg (by unfold Config.memSize; omega)

/-- What `memByte?` can answer. -/
theorem State.memByte?_eq_some (s : State) {a : Nat} {b : Byte} :
    s.memByte? a = some b ↔ a < 256 ∧ s.mem.read a = b := by
  unfold State.memByte? Config.memSize
  split <;> simp_all

theorem State.memByte?_eq_none (s : State) {a : Nat} : s.memByte? a = none ↔ 256 ≤ a := by
  unfold State.memByte? Config.memSize
  split <;> simp_all

theorem State.memRead_of_lt (s : State) {a : Nat} (h : a < 256) : s.memRead a = .ok (s.mem.read a) := by
  rw [State.memRead, s.memByte?_of_lt h]

theorem State.memRead_of_ge (s : State) {a : Nat} (h : 256 ≤ a) : s.memRead a = .error (.addressOutOfRange a) := by
  rw [State.memRead, s.memByte?_of_ge h]

theorem State.memWrite_of_lt (s : State) {a : Nat} (v : Byte) (h : a < 256) : s.memWrite a v = .ok (s.putByte a v) :=
  if_pos h

theorem State.memWrite_of_ge (s : State) {a : Nat} (v : Byte) (h : 256 ≤ a) :
    s.memWrite a v = .error (.addressOutOfRange a) := if_neg (by unfold Config.memSize; omega)

theorem State.pushAddress_lt (s : State) : s.pushAddress < 256 := (s.sp - 1).isLt

theorem State.popAddress_lt (s : State) : s.popAddress < 256 := s.sp.isLt

theorem State.pushAddress_eq (s : State) (h : s.sp ≠ 0) : s.pushAddress = s.sp.toNat - 1 := by
  unfold State.pushAddress
  bv_omega

theorem State.openSlot_of_zero (s : State) (h : s.sp = 0) : s.openSlot = .error .stackOverflow := if_pos h

theorem State.openSlot_of_room (s : State) (h : s.sp ≠ 0) : s.openSlot = .ok (s.setSp (s.sp - 1)) := if_neg h

theorem State.topOfStack_of_full (s : State) (h : s.sp = 255) : s.topOfStack = .error .stackUnderflow := if_pos h

theorem State.topOfStack_of_below (s : State) (h : s.sp ≠ 255) : s.topOfStack = .ok (s.mem.read s.popAddress) := by
  rw [State.topOfStack, if_neg h, s.memRead_of_lt s.popAddress_lt]

theorem State.returnAddress_of_fits (s : State) (h : s.pc.toNat + 2 < 256) :
    s.returnAddress = .ok (BitVec.ofNat 8 (s.pc.toNat + 2)) := if_pos h

theorem State.returnAddress_of_high (s : State) (h : 256 ≤ s.pc.toNat + 2) :
    s.returnAddress = .error (.addressOutOfRange (s.pc.toNat + 2)) := if_neg (by unfold Config.memSize; omega)

/-- A target byte names the same address in the pc. -/
@[simp] theorem zext9_toNat (v : Byte) : (zext9 v).toNat = v.toNat := by
  have := v.isLt
  simp [zext9]
  omega

/-- The common advance is exact where its sum is a pc value. -/
theorem State.advance_pc_toNat (s : State) {n : Nat} (h : s.pc.toNat + n + 1 < 512) :
    (s.advance n).pc.toNat = s.pc.toNat + n + 1 := by
  rw [State.advance_pc, BitVec.toNat_add, BitVec.toNat_ofNat]
  omega

/-- Narrowing an exact result keeps it modulo 256. -/
@[simp] theorem trunc8_toNat (n : Nat) : (trunc8 n).toNat = n % 256 := by
  simp [trunc8]

/-- CMP's three flags are exclusive and one of them is set. -/
theorem compareFlags_atMostOne (x y : Byte) : (compareFlags x y).AtMostOne := by
  unfold compareFlags Flags.AtMostOne
  simp
  omega

end Sys2Proof.Machine
end

