-- ==== Sys2Proof/Laws/Decode.lean ====
section
/-! SUPPORT. The decoder's parts, one lemma per answer, and what a fetch can answer. -/

namespace Sys2Proof

/-- The opcode map of this hardware meets R90. -/
theorem Config.hardware_ok : Config.hardware.Ok := by
  refine ⟨fun o p => ?_, fun o => ?_⟩
  · cases o <;> cases p <;> decide
  · cases o <;> decide

/-- With SUB it meets R90 too. -/
theorem Config.withSub_ok : Config.withSub.Ok := by
  refine ⟨fun o p => ?_, fun o => ?_⟩
  · cases o <;> cases p <;> decide
  · cases o <;> decide

/-- A byte that selects a row carries that row's opcode, and the machine has the row. -/
theorem Config.lookup_some {c : Config} {b : Byte} {o : Op} (h : c.lookup b = some o) :
    c.has o = true ∧ c.opcodeMap o = b := by
  simpa using List.find?_some h

/-- The opcode of an instruction the machine has selects its row (R90). -/
theorem Config.lookup_opcode {c : Config} (hc : c.Ok) {o : Op} (h : c.has o = true) :
    c.lookup (c.opcodeMap o) = some o := by
  cases hl : c.lookup (c.opcodeMap o) with
  | some p => obtain ⟨hp, he⟩ := Config.lookup_some hl; rw [hc.1 p o hp h he]
  | none =>
    have := List.find?_eq_none.mp hl o (by cases o <;> decide)
    simp [h] at this

/-- A byte selects no row exactly when it is the opcode of no instruction the machine has. -/
theorem Config.lookup_none {c : Config} {b : Byte} :
    c.lookup b = none ↔ ∀ o, c.has o = true → c.opcodeMap o ≠ b := by
  unfold Config.lookup
  rw [List.find?_eq_none]
  constructor
  · intro h o ho he
    exact absurd (h o (by cases o <;> decide)) (by simp [ho, he])
  · intro h o _
    cases ho : c.has o <;> simp [h o, ho]

@[simp] theorem regIndex_regByte (r : RegIndex) : regIndex (regByte r) = .ok r := by
  revert r; decide

theorem regIndex_of_lt {b : Byte} (h : b.toNat < 8) : regIndex b = .ok ⟨b.toNat, h⟩ := dif_pos h

theorem regIndex_of_ge {b : Byte} (h : 8 ≤ b.toNat) : regIndex b = .error (.registerOutOfRange b) :=
  dif_neg (by omega)

/-- A register the check of R114 lets through is named by its own byte. -/
theorem regByte_of_regIndex {b : Byte} {r : RegIndex} (h : regIndex b = .ok r) : regByte r = b := by
  unfold regIndex at h
  split at h
  · cases h; simp [regByte]
  · cases h

/-- The check of R114 refuses only by name. -/
theorem regIndex_error {b : Byte} {e : DecodeError} (h : regIndex b = .error e) : e = .registerOutOfRange b := by
  unfold regIndex at h
  split at h <;> cases h
  rfl

theorem operandAt_some {byteAt : Nat → Option Byte} {n k : Nat} {b : Byte} (hk : k ≤ n) (h : byteAt k = some b) :
    operandAt byteAt n k = .ok b := by simp [operandAt, hk, h]

theorem operandAt_none {byteAt : Nat → Option Byte} {n k : Nat} (hk : k ≤ n) (h : byteAt k = none) :
    operandAt byteAt n k = .error (.outOfBytes k) := by simp [operandAt, hk, h]

theorem operandAt_unused {byteAt : Nat → Option Byte} {n k : Nat} (hk : n < k) :
    operandAt byteAt n k = .ok 0 := if_neg (by omega)

/-- An operand byte that was answered was there, if the opcode has it. -/
theorem operandAt_ok {byteAt : Nat → Option Byte} {n k : Nat} {b : Byte} (h : operandAt byteAt n k = .ok b)
    (hk : k ≤ n) : byteAt k = some b := by
  unfold operandAt at h
  rw [if_pos hk] at h
  split at h <;> cases h
  assumption

theorem operandAt_error {byteAt : Nat → Option Byte} {n k : Nat} {e : DecodeError}
    (h : operandAt byteAt n k = .error e) : e = .outOfBytes k ∧ k ≤ n ∧ byteAt k = none := by
  unfold operandAt at h
  split at h
  · split at h <;> cases h
    exact ⟨rfl, ‹_›, ‹_›⟩
  · cases h

theorem decodeR_ok {mk : RegIndex → Instr} {b : Byte} {i : Instr} (h : decodeR mk b = .ok i) :
    ∃ r, regIndex b = .ok r ∧ i = mk r := by
  unfold decodeR at h
  split at h <;> cases h
  exact ⟨_, ‹_›, rfl⟩

theorem decodeRR_ok {mk : RegIndex → RegIndex → Instr} {b d : Byte} {i : Instr} (h : decodeRR mk b d = .ok i) :
    ∃ r q, regIndex b = .ok r ∧ regIndex d = .ok q ∧ i = mk r q := by
  unfold decodeRR at h
  split at h
  · cases h
  · split at h <;> cases h
    exact ⟨_, _, ‹_›, ‹_›, rfl⟩

theorem decodeR_error {mk : RegIndex → Instr} {b : Byte} {e : DecodeError} (h : decodeR mk b = .error e) :
    ∃ x, e = .registerOutOfRange x := by
  unfold decodeR at h
  split at h <;> cases h
  exact ⟨b, regIndex_error ‹_›⟩

theorem decodeRR_error {mk : RegIndex → RegIndex → Instr} {b d : Byte} {e : DecodeError}
    (h : decodeRR mk b d = .error e) : ∃ x, e = .registerOutOfRange x := by
  unfold decodeRR at h
  split at h
  · cases h; exact ⟨b, regIndex_error ‹_›⟩
  · split at h <;> cases h
    exact ⟨d, regIndex_error ‹_›⟩

/-- Operand bytes make an instruction of the operation they belong to. -/
theorem decodeOperands_op {o : Op} {x y : Byte} {i : Instr} (h : decodeOperands o x y = .ok i) : i.op = o := by
  cases o <;> simp only [decodeOperands] at h
  case hlt | ret => cases h; rfl
  case add | mul | cmp | sub => obtain ⟨_, _, _, _, rfl⟩ := decodeRR_ok h; rfl
  all_goals obtain ⟨_, _, rfl⟩ := decodeR_ok h; rfl

/-- Operand bytes are refused only for a register index. -/
theorem decodeOperands_error {o : Op} {x y : Byte} {e : DecodeError} (h : decodeOperands o x y = .error e) :
    ∃ b, e = .registerOutOfRange b := by
  cases o <;> simp only [decodeOperands] at h
  case hlt | ret => cases h
  case add | mul | cmp | sub => exact decodeRR_error h
  all_goals exact decodeR_error h

/-- Everything a decoded instruction says of the bytes it came from. -/
theorem decodeFrom_ok {c : Config} {byteAt : Nat → Option Byte} {i : Instr} (h : decodeFrom c byteAt = .ok i) :
    ∃ ir op1 op2, byteAt 0 = some ir ∧ c.lookup ir = some i.op ∧ operandAt byteAt (topBits ir) 1 = .ok op1 ∧
      operandAt byteAt (topBits ir) 2 = .ok op2 ∧ decodeOperands i.op op1 op2 = .ok i := by
  unfold decodeFrom at h
  split at h
  · cases h
  · split at h
    · cases h
    · split at h
      · cases h
      · split at h
        · cases h
        · have ho := decodeOperands_op h
          subst ho
          exact ⟨_, _, _, ‹_›, ‹_›, ‹_›, ‹_›, h⟩

/-- No instruction has more than two operands (R83). -/
theorem Op.operandCount_le_two (o : Op) : o.operandCount ≤ 2 := by cases o <;> decide

/-- Every byte of a decoded instruction was there. -/
theorem decodeFrom_ok_byteAt {c : Config} (hc : c.Ok) {byteAt : Nat → Option Byte} {i : Instr}
    (h : decodeFrom c byteAt = .ok i) : ∀ k, k < i.length → (byteAt k).isSome = true := by
  obtain ⟨ir, x, y, h0, hl, h1, h2, _⟩ := decodeFrom_ok h
  obtain ⟨hh, he⟩ := Config.lookup_some hl
  have hn : topBits ir = i.op.operandCount := he ▸ hc.2 _ hh
  have hle : i.op.operandCount ≤ 2 := Op.operandCount_le_two _
  intro k hk
  unfold Instr.length at hk
  match k with
  | 0 => simp [h0]
  | 1 => simp [operandAt_ok h1 (by omega)]
  | 2 => simp [operandAt_ok h2 (by omega)]
  | k + 3 => omega

namespace Machine

/-- A fetched instruction was decoded from the bytes at the pc. -/
theorem State.fetch_ok {c : Config} {s : State} {i : Instr} (h : s.fetch c = .ok i) :
    decodeFrom c (fun k => s.memByte? (s.pc.toNat + k)) = .ok i := by
  unfold State.fetch at h
  split at h <;> cases h
  assumption

/-- A fetched instruction is one the machine has. -/
theorem State.fetch_wellFormed {c : Config} {s : State} {i : Instr} (h : s.fetch c = .ok i) :
    i.wellFormed c = true := by
  obtain ⟨_, _, _, _, hl, _⟩ := decodeFrom_ok (State.fetch_ok h)
  exact (Config.lookup_some hl).1

/-- A fetched instruction ends at address 255 or below. -/
theorem State.fetch_fits {c : Config} (hc : c.Ok) {s : State} {i : Instr} (h : s.fetch c = .ok i) :
    s.pc.toNat + i.length ≤ 256 := by
  have hpos : 0 < i.length := Nat.succ_pos _
  have := decodeFrom_ok_byteAt hc (State.fetch_ok h) (i.length - 1) (by omega)
  obtain ⟨b, hb⟩ := Option.isSome_iff_exists.mp this
  have := (s.memByte?_eq_some.mp hb).1
  omega

/-- The faults of the fetch and decode stages are the first three of R200. -/
theorem State.fetch_error {c : Config} {s : State} {f : CoreFault} (h : s.fetch c = .error f) :
    (∃ a, f = .addressOutOfRange a) ∨ (∃ b, f = .unknownInstruction b) ∨ (∃ b, f = .registerOutOfRange b) := by
  unfold State.fetch at h
  split at h
  · cases h
  · next e _ => cases h; cases e <;> simp [fetchFault]

end Machine

end Sys2Proof
end

