-- ==== Sys2Proof/Laws/Exec.lean ====
section
/-! SUPPORT. What an instruction and a step can do, said once: `ownFault` and `effect` name the two ends of each
instruction, and `exec_eq` says that exec answers nothing else. -/

namespace Sys2Proof.Machine

/-- The fault an instruction raises of its own, after the checks of the common step (R117, point 5). -/
def ownFault (i : Instr) (s : State) : Option CoreFault :=
  match i with
  | .push _ => if s.sp = 0 then some .stackOverflow else none
  | .pop r =>
    if s.sp = 255 then some .stackUnderflow
    else if r = Config.spIndex ∧ s.mem.read s.popAddress = 255 then some .stackUnderflow else none
  | .call _ =>
    if 256 ≤ s.pc.toNat + 2 then some (.addressOutOfRange (s.pc.toNat + 2))
    else if s.sp = 0 then some .stackOverflow else none
  | .ret => if s.sp = 255 then some .stackUnderflow else none
  | _ => none

/-- The state an instruction leaves where it raises nothing. -/
def effect (i : Instr) (s : State) : State :=
  match i with
  | .hlt => s.halt.advance 0
  | .ret => (s.jump (s.mem.read s.popAddress)).closeSlot
  | .push r =>
    ((s.setSp (s.sp - 1)).putByte s.pushAddress ((s.setSp (s.sp - 1)).reg r)).advance 1
  | .pop r => (s.setReg r (s.mem.read s.popAddress)).closeSlot.advance 1
  | .prn r => (s.output (s.reg r)).advance 1
  | .call r =>
    ((s.setSp (s.sp - 1)).putByte s.pushAddress (BitVec.ofNat 8 (s.pc.toNat + 2))).jump ((s.setSp (s.sp - 1)).reg r)
  | .jmp r => s.jump (s.reg r)
  | .jeq r => s.branch s.flags.e r
  | .jne r => s.branch (!s.flags.e) r
  | .ldi r v => (s.setReg r v).advance 2
  | .add a b => (s.aluWrite .add a b).advance 2
  | .mul a b => (s.aluWrite .mul a b).advance 2
  | .cmp a b => (s.setFlags (compareFlags (s.reg a) (s.reg b))).advance 2
  | .sub a b => (s.aluWrite .sub a b).advance 2

theorem execPush_eq (r : RegIndex) (s : State) :
    execPush r s = .next (if s.sp = 0 then s.raise .stackOverflow else effect (.push r) s) := by
  unfold execPush
  by_cases h : s.sp = 0
  · rw [s.openSlot_of_zero h, if_pos h]; rfl
  · rw [s.openSlot_of_room h, if_neg h]
    simp only [bind, Except.bind, State.memWrite_of_lt _ _ s.pushAddress_lt]
    rfl

theorem execCall_eq (r : RegIndex) (s : State) :
    execCall r s = .next
      (if 256 ≤ s.pc.toNat + 2 then s.raise (.addressOutOfRange (s.pc.toNat + 2))
       else if s.sp = 0 then s.raise .stackOverflow else effect (.call r) s) := by
  unfold execCall
  by_cases hp : 256 ≤ s.pc.toNat + 2
  · rw [s.returnAddress_of_high hp, if_pos hp]; rfl
  · rw [s.returnAddress_of_fits (by omega), if_neg hp]
    by_cases h : s.sp = 0
    · rw [s.openSlot_of_zero h, if_pos h]; rfl
    · rw [s.openSlot_of_room h, if_neg h]
      simp only [bind, Except.bind, State.memWrite_of_lt _ _ s.pushAddress_lt]
      rfl

theorem execRet_eq (s : State) :
    execRet s = .next (if s.sp = 255 then s.raise .stackUnderflow else effect .ret s) := by
  unfold execRet
  by_cases h : s.sp = 255
  · rw [s.topOfStack_of_full h, if_pos h]; rfl
  · rw [s.topOfStack_of_below h, if_neg h]; rfl

theorem execPop_eq (r : RegIndex) (s : State) :
    execPop r s = .next
      (if s.sp = 255 then s.raise .stackUnderflow
       else if r = Config.spIndex ∧ s.mem.read s.popAddress = 255 then s.raise .stackUnderflow
       else effect (.pop r) s) := by
  unfold execPop
  by_cases h : s.sp = 255
  · rw [s.topOfStack_of_full h, if_pos h]; rfl
  · rw [s.topOfStack_of_below h, if_neg h]
    simp only [bind, Except.bind]
    split <;> rfl

/-- exec answers a next state for every instruction at every state: the fault it raises, or its effect. -/
theorem exec_eq (i : Instr) (s : State) :
    exec i s = .next (match ownFault i s with | some f => s.raise f | none => effect i s) := by
  cases i with
  | push r => rw [exec, execPush_eq, ownFault]; split <;> rfl
  | pop r =>
    rw [exec, execPop_eq, ownFault]
    split
    · rfl
    · split <;> rfl
  | call r =>
    rw [exec, execCall_eq, ownFault]
    split
    · rfl
    · split <;> rfl
  | ret => rw [exec, execRet_eq, ownFault]; split <;> rfl
  | _ => rfl

/-- The two ends of an instruction. -/
theorem exec_cases {i : Instr} {s t : State} (h : exec i s = .next t) :
    (∃ f, ownFault i s = some f ∧ t = s.raise f) ∨ (ownFault i s = none ∧ t = effect i s) := by
  rw [exec_eq] at h
  cases hf : ownFault i s <;> simp only [hf] at h <;> cases h
  · exact .inr ⟨rfl, rfl⟩
  · exact .inl ⟨_, rfl, rfl⟩

/-- An instruction of its own raises only an address or a stack fault. -/
theorem ownFault_kind {i : Instr} {s : State} {f : CoreFault} (h : ownFault i s = some f) :
    (∃ a, f = .addressOutOfRange a) ∨ f = .stackOverflow ∨ f = .stackUnderflow := by
  cases i <;> simp only [ownFault, reduceCtorEq] at h <;> split at h <;> (try split at h) <;> cases h <;> simp

/-- The three ends of a step: a fault of the fetch, a fault of the instruction, the instruction's effect. -/
theorem cycle_cases {c : Config} {s t : State} (h : cycle c s = .next t) :
    s.status = .running ∧
      ((∃ f, s.fetch c = .error f ∧ t = s.raise f) ∨
       (∃ i f, s.fetch c = .ok i ∧ ownFault i s = some f ∧ t = s.raise f) ∨
       (∃ i, s.fetch c = .ok i ∧ ownFault i s = none ∧ t = effect i s)) := by
  unfold cycle at h
  split at h
  · cases h
  · refine ⟨‹_›, ?_⟩
    split at h
    · cases h; exact .inl ⟨_, ‹_›, rfl⟩
    · obtain ⟨f, hf, rfl⟩ | ⟨hf, rfl⟩ := exec_cases h
      · exact .inr (.inl ⟨_, f, ‹_›, hf, rfl⟩)
      · exact .inr (.inr ⟨_, ‹_›, hf, rfl⟩)

/-- A running machine whose fetch fails takes the fault. -/
theorem cycle_of_fetch_error {c : Config} {s : State} {f : CoreFault} (hs : s.status = .running)
    (h : s.fetch c = .error f) : cycle c s = .next (s.raise f) := by
  simp only [cycle, hs, h]

/-- A running machine whose fetch succeeds executes what it fetched. -/
theorem cycle_of_fetch_ok {c : Config} {s : State} {i : Instr} (hs : s.status = .running)
    (h : s.fetch c = .ok i) : cycle c s = exec i s := by
  simp only [cycle, hs, h]

end Sys2Proof.Machine
end

