-- ==== Sys2Proof/Laws/PerInstr.lean ====
section
/-! SUPPORT. Per-instruction families named in LAWS.json. -/

namespace Sys2Proof.Laws.EncodedLength

/-- The encoding of an instruction is as long as the instruction says, for any opcode map (R80). -/
def Statement (i : Instr) : Prop := ∀ c : Config, (encode c i).length = i.length

theorem hlt : Statement .hlt := fun _ => rfl
theorem ret : Statement .ret := fun _ => rfl
theorem push (r : RegIndex) : Statement (.push r) := fun _ => rfl
theorem pop (r : RegIndex) : Statement (.pop r) := fun _ => rfl
theorem prn (r : RegIndex) : Statement (.prn r) := fun _ => rfl
theorem call (r : RegIndex) : Statement (.call r) := fun _ => rfl
theorem jmp (r : RegIndex) : Statement (.jmp r) := fun _ => rfl
theorem jeq (r : RegIndex) : Statement (.jeq r) := fun _ => rfl
theorem jne (r : RegIndex) : Statement (.jne r) := fun _ => rfl
theorem ldi (r : RegIndex) (v : Byte) : Statement (.ldi r v) := fun _ => rfl
theorem add (a b : RegIndex) : Statement (.add a b) := fun _ => rfl
theorem mul (a b : RegIndex) : Statement (.mul a b) := fun _ => rfl
theorem cmp (a b : RegIndex) : Statement (.cmp a b) := fun _ => rfl
theorem sub (a b : RegIndex) : Statement (.sub a b) := fun _ => rfl

end Sys2Proof.Laws.EncodedLength
end

