-- ==== Sys2Proof/Tests/Slice0.lean ====
section
/-! SUPPORT. Tests: bytes written out from 30_encoding.md R88, single steps with the expected results of spec/95_test_vectors.md
(V1 to V64), and a witness for the hypotheses of every statement that has some. -/

namespace Sys2Proof.Tests

open Sys2Proof.Machine

/-- A running machine in its reset state but for the pc and the bytes there. -/
def machineAt (pc : PcWord) (code : List Byte) : State :=
  { State.reset with pc := pc, status := .running, mem := Memory.writeFrom [] pc.toNat code }

/-- The next state of a step of this hardware. -/
def next (s : State) : Option State :=
  match step s with
  | .next t => some t
  | .fault _ => none
  | .refused _ => none

/-- STATUS, CAUSE, INFO and the pc, as numbers, for a fault's test. -/
def report (s : State) : Status × Nat × Nat × Nat :=
  (s.status, s.cause.code.toNat, s.info.toNat, s.pc.toNat)

/-! ### WellFormed and the decoder -/

-- R88: SUB exists only if HAS_SUB.
theorem test_wellFormed_refuses_sub : (Instr.sub 0 1).wellFormed Config.hardware = false := by decide
theorem test_wellFormed_admits_sub : (Instr.sub 0 1).wellFormed Config.withSub = true := by decide
theorem test_wellFormed_admits_add : (Instr.add 7 0).wellFormed Config.hardware = true := by decide

-- R88's bytes, one for each constructor.
theorem test_decode_hlt : decode Config.hardware [0b00000001] = .ok (.hlt, []) := by decide
theorem test_decode_ret : decode Config.hardware [0b00010001] = .ok (.ret, []) := by decide
theorem test_decode_push : decode Config.hardware [0b01000101, 7] = .ok (.push 7, []) := by decide
theorem test_decode_pop : decode Config.hardware [0b01000110, 0] = .ok (.pop 0, []) := by decide
theorem test_decode_prn : decode Config.hardware [0b01000111, 1] = .ok (.prn 1, []) := by decide
theorem test_decode_call : decode Config.hardware [0b01010000, 3, 0xA7] = .ok (.call 3, [0xA7]) := by decide
theorem test_decode_jmp : decode Config.hardware [0b01010100, 4] = .ok (.jmp 4, []) := by decide
theorem test_decode_jeq : decode Config.hardware [0b01010101, 2] = .ok (.jeq 2, []) := by decide
theorem test_decode_jne : decode Config.hardware [0b01010110, 2] = .ok (.jne 2, []) := by decide
theorem test_decode_ldi : decode Config.hardware [0b10000010, 3, 255] = .ok (.ldi 3 255, []) := by decide
theorem test_decode_add : decode Config.hardware [0b10100000, 7, 0] = .ok (.add 7 0, []) := by decide
theorem test_decode_mul : decode Config.hardware [0b10100010, 0, 1] = .ok (.mul 0 1, []) := by decide
theorem test_decode_cmp : decode Config.hardware [0b10100111, 4, 5] = .ok (.cmp 4 5, []) := by decide
theorem test_decode_sub : decode Config.withSub [0b10100001, 0, 1] = .ok (.sub 0 1, []) := by decide
-- C1: not on this hardware.
theorem test_decode_sub_unknown : decode Config.hardware [0b10100001, 0, 1] = .error (.unknownInstruction 0xA1) := by
  decide
-- R84: byte 8 is not register 0.
theorem test_decode_register_8 : decode Config.hardware [0x47, 8] = .error (.registerOutOfRange 8) := by decide
-- R81: the same low bits as HLT with another operand count are another opcode (V11).
theorem test_decode_41 : decode Config.hardware [0x41, 0, 0] = .error (.unknownInstruction 0x41) := by decide
theorem test_decode_missing_operand : decode Config.hardware [0x82, 0] = .error (.outOfBytes 2) := by decide
theorem test_tableWord_ldi : decodeTableWord 24 0xFF0382 = some (.ldi 3 255) := by decide
theorem test_tableWord_short : decodeTableWord 8 0xFFA0 = some (.add 0 0) := by decide
theorem test_withFetchWord : (next (State.reset.withFetchWord 24 0x080082)).map (·.reg 0) = some 8 := by decide

/-! ### Fetch and the order of checks (V4 to V10) -/

theorem test_V4_hlt_at_255 : (next (machineAt 255 [0x01])).map report = some (.halted, 0, 0, 256) := by decide
theorem test_V5_fetch_at_256 : (next (machineAt 256 [])).map report = some (.halted, 2, 256, 256) := by decide
theorem test_V6_prn_at_255 : (next (machineAt 255 [0x47])).map report = some (.halted, 2, 256, 255) := by decide
theorem test_V7_ldi_at_254 : (next (machineAt 254 [0x82])).map report = some (.halted, 2, 256, 254) := by decide
theorem test_V8_unknown_at_255 : (next (machineAt 255 [0xFF])).map report = some (.halted, 1, 255, 255) := by decide
theorem test_V10_C1 : (next (machineAt 0 [0xC1])).map report = some (.halted, 1, 193, 0) := by decide
theorem test_V18a_first_operand : (next (machineAt 0 [0xA0, 9, 12])).map report = some (.halted, 3, 9, 0) := by decide
theorem test_V39b_register_before_stack :
    (next ((machineAt 0 [0x45, 9]).setSp 0)).map report = some (.halted, 3, 9, 0) := by decide
theorem test_V57_jeq_checks_when_not_taken :
    (next (machineAt 10 [0x55, 8])).map report = some (.halted, 3, 8, 10) := by decide
theorem test_V64_halted : next State.reset = none := by decide

/-! ### The instructions, at most two tests each -/

theorem test_V13_add_wraps :
    (next (((machineAt 0 [0xA0, 0, 1]).setReg 0 200).setReg 1 100)).map (fun t => (t.reg 0, t.pc)) = some (44, 3) := by
  decide
theorem test_V13b_add_doubles : (next ((machineAt 0 [0xA0, 2, 2]).setReg 2 128)).map (·.reg 2) = some 0 := by decide
theorem test_V13f_mul : (next ((machineAt 0 [0xA2, 0, 0]).setReg 0 255)).map (·.reg 0) = some 1 := by decide
theorem test_V13g_mul :
    (next (((machineAt 0 [0xA2, 0, 1]).setReg 0 200).setReg 1 2)).map (·.reg 0) = some 144 := by decide
theorem test_V19_sub_unknown : (next (machineAt 0 [0xA1, 0, 1])).map report = some (.halted, 1, 161, 0) := by decide
theorem test_V19b_sub_wraps :
    (match cycle Config.withSub (((machineAt 0 [0xA1, 0, 1]).setReg 0 5).setReg 1 9) with
      | .next t => some (t.reg 0)
      | _ => none) = some 252 := by decide
theorem test_V14_cmp_less :
    (next (((machineAt 0 [0xA7, 0, 1]).setReg 0 3).setReg 1 5)).map (·.flags) = some ⟨false, true, false⟩ := by decide
theorem test_V17_cmp_unsigned :
    (next ((machineAt 0 [0xA7, 0, 1]).setReg 0 255)).map (·.flags) = some ⟨false, false, true⟩ := by decide
theorem test_V21_ldi : (next (machineAt 0 [0x82, 3, 255])).map (fun t => (t.reg 3, t.pc)) = some (255, 3) := by decide
theorem test_V22_ldi_sp : (next (machineAt 0 [0x82, 7, 16])).map (·.sp) = some 16 := by decide
theorem test_V27_prn_sp : (next (machineAt 0 [0x47, 7])).map (fun t => (t.out, t.pc)) = some ([244], 2) := by decide
theorem test_V30_push :
    (next ((machineAt 0 [0x45, 0]).setReg 0 5)).map (fun t => (t.sp, t.mem.read 243, t.pc)) = some (243, 5, 2) := by
  decide
theorem test_V37_push_sp :
    (next (machineAt 0 [0x45, 7])).map (fun t => (t.sp, t.mem.read 243)) = some (243, 243) := by decide
theorem test_V34_pop_empty :
    (next ((machineAt 0 [0x46, 0]).setReg 0 9)).map (fun t => (t.reg 0, t.sp, t.pc)) = some (0, 245, 2) := by decide
theorem test_V39_pop_sp :
    (next (((machineAt 0 [0x46, 7]).setSp 243).putByte 243 100)).map (·.sp) = some 101 := by decide
theorem test_V40_call :
    (next ((machineAt 15 [0x50, 3]).setReg 3 27)).map (fun t => (t.sp, t.mem.read 243, t.pc)) = some (243, 17, 27) := by
  decide
theorem test_V49_call_at_254 :
    (next ((machineAt 254 [0x50, 0]).setSp 0)).map report = some (.halted, 2, 256, 254) := by decide
theorem test_V41_ret :
    (next (((machineAt 30 [0x11]).setSp 243).putByte 243 17)).map (fun t => (t.pc, t.sp)) = some (17, 244) := by decide
theorem test_V47_ret_underflow : (next ((machineAt 0 [0x11]).setSp 255)).map report = some (.halted, 5, 0, 0) := by
  decide
theorem test_V50_jmp : (next ((machineAt 10 [0x54, 4]).setReg 4 15)).map (·.pc) = some 15 := by decide
theorem test_V51_jeq_taken :
    (next (((machineAt 10 [0x55, 2]).setReg 2 40).setFlags ⟨true, false, false⟩)).map (·.pc) = some 40 := by decide
theorem test_V55_jeq_at_reset : (next ((machineAt 10 [0x55, 2]).setReg 2 40)).map (·.pc) = some 12 := by decide
theorem test_V54_jne_not_taken :
    (next (((machineAt 10 [0x56, 2]).setReg 2 40).setFlags ⟨true, false, false⟩)).map (·.pc) = some 12 := by decide
theorem test_V56_jne_at_reset : (next ((machineAt 10 [0x56, 2]).setReg 2 40)).map (·.pc) = some 40 := by decide
theorem test_V60_hlt : (next (machineAt 11 [0x01])).map report = some (.halted, 0, 0, 12) := by decide

/-! ### Text (R41, R100, R96, R101, R29) -/

theorem test_outputLine_72 : outputLine 72 = ['7', '2', Char.ofNat 10] := by decide
theorem test_outputLine_0 : outputLine 0 = ['0', Char.ofNat 10] := by decide
theorem test_decimal_255 : decimal 255 = ['2', '5', '5'] := by decide
-- R100's example lines, with a comment and a blank line.
theorem test_parseLines :
    parseLines [['1', '0', '0', '0', '0', '0', '1', '0', ' ', '#', ' ', 'L'], [' '], ['0', '0', '0', '0', '0', '0', '0', '0'],
      ['#', '1'], ['0', '0', '0', '0', '1', '0', '0', '0']] = some [0x82, 0, 8] := by decide
theorem test_parseLines_malformed : parseLines [['1', '0', '2']] = none := by decide
theorem test_asm : asmText (.ldi 0 8) = ['L', 'D', 'I', ' ', 'R', '0', ',', '8'] := by decide
theorem test_disassemble_byte :
    disassemble Config.hardware [0xFF] = ['.', 'b', 'y', 't', 'e', ' ', '0', 'x', 'F', 'F'] := by decide
-- R101, on the CALL at 15 of program P3 of 95_test_vectors.md.
theorem test_listingLine :
    listingLine Config.hardware 15 [0x50, 0x03, 0x50] =
      ['1', '5', ' ', '5', '0', ' ', '0', '3', ' ', 'C', 'A', 'L', 'L', ' ', 'R', '3'] := by decide
theorem test_flags_byte : (Flags.mk true false false).toByte = 1 ∧ (Flags.mk false true false).toByte = 4 := by decide

/-! ### Witnesses: states and operands that meet the hypotheses of the statements -/

theorem machineAt_hlt_inv : (machineAt 255 [0x01]).Inv where
  mem_wf := by decide
  pc_le := by decide
  flags_le := by unfold Flags.AtMostOne; decide
  cause_halted := fun h => absurd rfl h
  info_zero := fun _ => rfl

theorem machineAt_unknown_inv : (machineAt 255 [0xC0]).Inv where
  mem_wf := by decide
  pc_le := by decide
  flags_le := by unfold Flags.AtMostOne; decide
  cause_halted := fun h => absurd rfl h
  info_zero := fun _ => rfl

theorem machineAt_256_inv : (machineAt 256 []).Inv where
  mem_wf := by decide
  pc_le := by decide
  flags_le := by unfold Flags.AtMostOne; decide
  cause_halted := fun h => absurd rfl h
  info_zero := fun _ => rfl

theorem hasCode_of_three {s : State} {x y z : Byte} (h : s.pc.toNat + 2 < Config.memSize)
    (hx : s.mem.read s.pc.toNat = x) (hy : s.mem.read (s.pc.toNat + 1) = y) (hz : s.mem.read (s.pc.toNat + 2) = z) :
    s.HasCode [x, y, z] := by
  intro k b hk
  match k with
  | 0 => simp at hk; exact ⟨by omega, hk ▸ hx⟩
  | 1 => simp at hk; exact ⟨by omega, hk ▸ hy⟩
  | 2 => simp at hk; exact ⟨by omega, hk ▸ hz⟩
  | k + 3 => simp at hk

theorem hasCode_of_two {s : State} {x y : Byte} (h : s.pc.toNat + 1 < Config.memSize)
    (hx : s.mem.read s.pc.toNat = x) (hy : s.mem.read (s.pc.toNat + 1) = y) : s.HasCode [x, y] := by
  intro k b hk
  match k with
  | 0 => simp at hk; exact ⟨by omega, hk ▸ hx⟩
  | 1 => simp at hk; exact ⟨by omega, hk ▸ hy⟩
  | k + 2 => simp at hk

theorem hasCode_of_one {s : State} {x : Byte} (h : s.pc.toNat < Config.memSize)
    (hx : s.mem.read s.pc.toNat = x) : s.HasCode [x] := by
  intro k b hk
  match k with
  | 0 => simp at hk; exact ⟨by omega, hk ▸ hx⟩
  | k + 1 => simp at hk

theorem witness_EncodedInstructionDecodesToItself :
    Config.withSub.Ok ∧ (Instr.sub 0 7).wellFormed Config.withSub = true := ⟨Config.withSub_ok, by decide⟩

theorem witness_DecodedBytesAreTheEncoding :
    Config.hardware.Ok ∧ decode Config.hardware [0x82, 7, 0xFF, 1] = .ok (.ldi 7 255, [1]) :=
  ⟨Config.hardware_ok, by decide⟩

theorem witness_InstructionLengthIsOnePlusTopBits :
    Config.hardware.Ok ∧ decode Config.hardware [0xA0, 0, 7, 9] = .ok (.add 0 7, [9]) ∧
    decode Config.hardware [0xA0, 3, 3] = .ok (.add 3 3, []) := ⟨Config.hardware_ok, by decide, by decide⟩

theorem witness_UnknownOpcodesAreAllTheOthers : Config.hardware.Ok ∧ 192 ≤ (0xC0 : Byte).toNat :=
  ⟨Config.hardware_ok, by decide⟩

theorem witness_StepRunsDecodedInstruction :
    (machineAt 253 [0x82, 7, 1]).status = .running ∧
    decode Config.hardware (machineAt 253 [0x82, 7, 1]).codeFromPc = .ok (.ldi 7 1, []) := by decide

-- One witness for each clause, at the edge of its range.
theorem witness_StepChecksInOrder_fetch :
    Config.hardware.Ok ∧ (machineAt 256 []).status = .running ∧ 256 ≤ (machineAt 256 []).pc.toNat :=
  ⟨Config.hardware_ok, by decide, by decide⟩
theorem witness_StepChecksInOrder_unknown :
    (machineAt 255 [0xC0]).pc.toNat < 256 ∧
    Config.hardware.lookup ((machineAt 255 [0xC0]).mem.read (machineAt 255 [0xC0]).pc.toNat) = none := by decide
theorem witness_StepChecksInOrder_operand1 :
    Config.hardware.lookup ((machineAt 255 [0x47]).mem.read (machineAt 255 [0x47]).pc.toNat) = some .prn ∧
    1 ≤ Op.prn.operandCount ∧ (machineAt 255 [0x47]).pc.toNat + 1 = 256 := by decide
theorem witness_StepChecksInOrder_operand2 :
    Config.hardware.lookup ((machineAt 254 [0x82]).mem.read (machineAt 254 [0x82]).pc.toNat) = some .ldi ∧
    Op.ldi.operandCount = 2 ∧ (machineAt 254 [0x82]).pc.toNat + 2 = 256 := by decide
theorem witness_StepChecksInOrder_register1 :
    Config.hardware.lookup ((machineAt 254 [0x47, 8]).mem.read (machineAt 254 [0x47, 8]).pc.toNat) = some .prn ∧
    (machineAt 254 [0x47, 8]).pc.toNat + Op.prn.operandCount < 256 ∧ 1 ≤ registerOperands .prn ∧
    8 ≤ ((machineAt 254 [0x47, 8]).mem.read ((machineAt 254 [0x47, 8]).pc.toNat + 1)).toNat := by decide
theorem witness_StepChecksInOrder_register2 :
    Config.hardware.lookup ((machineAt 253 [0xA0, 7, 8]).mem.read (machineAt 253 [0xA0, 7, 8]).pc.toNat) = some .add ∧
    (machineAt 253 [0xA0, 7, 8]).pc.toNat + Op.add.operandCount < 256 ∧ registerOperands .add = 2 ∧
    ((machineAt 253 [0xA0, 7, 8]).mem.read ((machineAt 253 [0xA0, 7, 8]).pc.toNat + 1)).toNat < 8 ∧
    8 ≤ ((machineAt 253 [0xA0, 7, 8]).mem.read ((machineAt 253 [0xA0, 7, 8]).pc.toNat + 2)).toNat := by decide
theorem witness_StepChecksInOrder_exec :
    Config.hardware.lookup ((machineAt 253 [0xA0, 7, 7]).mem.read (machineAt 253 [0xA0, 7, 7]).pc.toNat) = some .add ∧
    (machineAt 253 [0xA0, 7, 7]).pc.toNat + Op.add.operandCount < 256 ∧
    ((machineAt 253 [0xA0, 7, 7]).mem.read ((machineAt 253 [0xA0, 7, 7]).pc.toNat + 1)).toNat < 8 ∧
    ((machineAt 253 [0xA0, 7, 7]).mem.read ((machineAt 253 [0xA0, 7, 7]).pc.toNat + 2)).toNat < 8 := by decide

theorem witness_UnknownOpcodeEndsTheRun :
    (machineAt 255 [0xFF]).status = .running ∧ (machineAt 255 [0xFF]).pc.toNat < 256 ∧
    Config.hardware.lookup ((machineAt 255 [0xFF]).mem.read (machineAt 255 [0xFF]).pc.toNat) = none := by decide

theorem witness_RegisterOperandAboveSevenFaults_first :
    Config.hardware.Ok ∧ Config.hardware.has .cmp = true ∧ (machineAt 253 [0xA7, 8, 0]).status = .running ∧
    (machineAt 253 [0xA7, 8, 0]).HasCode ((Config.hardware.opcodeMap .cmp :: [8, 0]).take (Op.cmp.operandCount + 1)) ∧
    8 ≤ (8 : Byte).toNat :=
  ⟨Config.hardware_ok, by decide, by decide, hasCode_of_three (by decide) (by decide) (by decide) (by decide), by decide⟩
theorem witness_RegisterOperandAboveSevenFaults_second :
    Config.hardware.Ok ∧ Config.hardware.has .mul = true ∧ (machineAt 253 [0xA2, 7, 8]).status = .running ∧
    (machineAt 253 [0xA2, 7, 8]).HasCode ((Config.hardware.opcodeMap .mul :: [7, 8]).take (Op.mul.operandCount + 1)) ∧
    (7 : Byte).toNat < 8 ∧ 8 ≤ (8 : Byte).toNat :=
  ⟨Config.hardware_ok, by decide, by decide, hasCode_of_three (by decide) (by decide) (by decide) (by decide), by decide,
    by decide⟩
theorem witness_RegisterOperandAboveSevenFaults_none :
    Config.hardware.Ok ∧ (machineAt 255 [0x01]).status = .running ∧ (machineAt 255 [0x01]).cause = .none ∧
    (machineAt 255 [0x01]).HasCode ((Config.hardware.opcodeMap .hlt :: [8, 8]).take (Op.hlt.operandCount + 1)) ∧
    ∃ t, cycle Config.hardware (machineAt 255 [0x01]) = .next t :=
  ⟨Config.hardware_ok, rfl, rfl, hasCode_of_one (by decide) (by decide), _, rfl⟩

theorem witness_RunningMachinesStepAndHaltedOnesDoNot :
    State.reset.status = .halted ∧ (machineAt 256 []).status = .running := by decide

theorem witness_OnlyHltAndFaultsHalt_hlt :
    Config.hardware.Ok ∧ ∃ t, cycle Config.hardware (machineAt 255 [0x01]) = .next t ∧ t.status = .halted :=
  ⟨Config.hardware_ok, _, rfl, rfl⟩
theorem witness_OnlyHltAndFaultsHalt_fault :
    ∃ t, cycle Config.hardware (machineAt 255 [0xC0]) = .next t ∧ t.status = .halted := ⟨_, rfl, rfl⟩

theorem witness_RunsAreSingleSteps : (runFor Config.hardware 1 (machineAt 255 [0x01])).status = .halted := by decide

theorem witness_LdiLoadsItsOperandByte :
    Config.hardware.Ok ∧ (machineAt 253 [0x82, 7, 255]).status = .running ∧
    (machineAt 253 [0x82, 7, 255]).HasCode [Config.hardware.opcodeMap .ldi, regByte 7, 255] ∧
    (machineAt 253 [0x82, 7, 255]).pc.toNat + 3 ≤ 256 :=
  ⟨Config.hardware_ok, by decide, hasCode_of_three (by decide) (by decide) (by decide) (by decide), by decide⟩

theorem witness_ThreeByteAdvance : (machineAt 253 []).pc.toNat + 3 ≤ 256 := by decide
theorem witness_TwoByteAdvance : (machineAt 254 []).pc.toNat + 2 ≤ 256 := by decide
theorem witness_OneByteAdvance : (machineAt 255 []).pc.toNat + 1 ≤ 256 := by decide

theorem witness_SubWritesDifferenceModulo256 :
    (machineAt 253 [0xA1, 0, 7]).status = .running ∧ (machineAt 253 [0xA1, 0, 7]).HasCode [0xA1, regByte 0, regByte 7] :=
  ⟨by decide, hasCode_of_three (by decide) (by decide) (by decide) (by decide)⟩

theorem witness_CmpSetsFlagsByUnsignedOrder :
    ((machineAt 0 []).reg 0).toNat = ((machineAt 0 []).reg 1).toNat ∧
    ((machineAt 0 []).reg 0).toNat < (((machineAt 0 []).setReg 1 255).reg 1).toNat ∧
    ((machineAt 0 []).reg 7).toNat > ((machineAt 0 []).reg 0).toNat := by decide

theorem witness_PrnAppendsItsRegister_register :
    (machineAt 254 [0x47, 8]).status = .running ∧ (machineAt 254 [0x47, 8]).HasCode [0x47, 8] ∧ 8 ≤ (8 : Byte).toNat :=
  ⟨by decide, hasCode_of_two (by decide) (by decide) (by decide), by decide⟩
theorem witness_PrnAppendsItsRegister_address :
    (machineAt 255 [0x47]).status = .running ∧ (machineAt 255 [0x47]).pc.toNat = 255 ∧
    (machineAt 255 [0x47]).mem.read 255 = 0x47 := by decide

theorem witness_PushStoresBelowTheStackTop :
    ((machineAt 254 []).setSp 1).sp ≠ 0 ∧ ((machineAt 254 []).setSp 1).mem.wf = true ∧
    ((machineAt 254 []).setSp 1).pc.toNat + 2 ≤ 256 := by decide

theorem witness_PopLoadsTheStackTop :
    ((machineAt 254 []).setSp 254).sp ≠ 255 ∧
    ¬((7 : RegIndex) = Config.spIndex ∧
      ((machineAt 254 []).setSp 254).mem.read ((machineAt 254 []).setSp 254).popAddress = 255) ∧
    (0 : RegIndex) ≠ Config.spIndex := by decide

theorem witness_CallPushesReturnAddressAndJumps :
    ((machineAt 253 []).setSp 1).pc.toNat + 2 ≤ 255 ∧ ((machineAt 253 []).setSp 1).sp ≠ 0 ∧
    ((machineAt 253 []).setSp 1).mem.wf = true := by decide

theorem witness_RetJumpsToTheStackTop : ((machineAt 255 [0x11]).setSp 254).sp ≠ 255 := by decide

theorem witness_JeqAndJne :
    (machineAt 254 []).flags.e = false ∧ ((machineAt 254 []).setFlags ⟨true, false, false⟩).flags.e = true ∧
    (machineAt 254 []).pc.toNat + 2 ≤ 256 := by decide

theorem witness_PushAndCallOverflowAtZero :
    ((machineAt 253 []).setSp 0).sp = 0 ∧ ((machineAt 253 []).setSp 0).pc.toNat + 2 ≤ 255 := by decide

theorem witness_PopAndRetUnderflowAtTheTop_sp : ((machineAt 0 []).setSp 255).sp = 255 := by decide
theorem witness_PopAndRetUnderflowAtTheTop_loads_255 :
    (7 : RegIndex) = Config.spIndex ∧
    (((machineAt 0 []).setSp 254).putByte 254 255).mem.read (((machineAt 0 []).setSp 254).putByte 254 255).sp.toNat = 255 := by
  decide

theorem witness_CallNeedsAByteReturnAddress : (machineAt 254 []).pc.toNat = 254 := by decide

theorem witness_PushThenPopRestores :
    ((machineAt 0 []).setSp 1).mem.wf = true ∧ ((machineAt 0 []).setSp 1).sp ≠ 0 := by decide

theorem witness_RetReturnsBehindItsCall :
    ∃ t v : State, ((machineAt 253 []).setSp 1).mem.wf = true ∧ ((machineAt 253 []).setSp 1).pc.toNat + 2 ≤ 255 ∧
      ((machineAt 253 []).setSp 1).sp ≠ 0 ∧ exec (.call 0) ((machineAt 253 []).setSp 1) = .next t ∧ v.sp = t.sp ∧
      v.mem.read v.sp.toNat = t.mem.read t.sp.toNat :=
  ⟨_, _, by decide, by decide, by decide, rfl, rfl, rfl⟩

theorem witness_ExactlyOneOfJeqAndJneIsTaken : (machineAt 254 []).pc.toNat + 2 ≤ 256 := by decide

/-- A machine about to push `v` from register 0 onto the instruction after the PUSH, with `rest` behind it. -/
def planting (v : Byte) (rest : List Byte) : State :=
  ((machineAt 8 ([0x45, 0, 0] ++ rest)).setSp 11).setReg 0 v

theorem witness_PushedByteIsFetchedByTheNextStep_hlt :
    Config.hardware.Ok ∧ (planting 0x01 []).status = .running ∧ (planting 0x01 []).mem.wf = true ∧
    (planting 0x01 []).HasCode (encode Config.hardware (.push 0)) ∧
    (planting 0x01 []).sp.toNat = (planting 0x01 []).pc.toNat + 3 ∧
    0x01 = (if (0 : RegIndex) = Config.spIndex then (planting 0x01 []).sp - 1 else (planting 0x01 []).reg 0) ∧
    0x01 = Config.hardware.opcodeMap .hlt :=
  ⟨Config.hardware_ok, by decide, by decide, hasCode_of_two (by decide) (by decide) (by decide), by decide, by decide,
    by decide⟩
theorem witness_PushedByteIsFetchedByTheNextStep_unknown :
    Config.hardware.lookup ((planting 0xFF []).reg 0) = none := by decide
-- A planted PRN with its operand behind it, which runs, and one with operand byte 8, which faults.
theorem witness_PushedByteIsFetchedByTheNextStep_known :
    Config.hardware.lookup ((planting 0x47 [7]).reg 0) = some .prn ∧
    ((next (planting 0x47 [7])).bind next).map (·.out) = some [10] ∧
    ((next (planting 0x47 [8])).bind next).map report = some (.halted, 3, 8, 10) := by decide
theorem witness_PushedByteIsFetchedByTheNextStep_sp :
    ((machineAt 8 [0x45, 7]).setSp 11).HasCode (encode Config.hardware (.push 7)) ∧
    10 = (if (7 : RegIndex) = Config.spIndex then ((machineAt 8 [0x45, 7]).setSp 11).sp - 1
      else ((machineAt 8 [0x45, 7]).setSp 11).reg 7) :=
  ⟨hasCode_of_two (by decide) (by decide) (by decide), by decide⟩
-- V45: CALL R7 at 0 jumps onto its own return address, 2, an unknown opcode.
theorem witness_PushedByteIsFetchedByTheNextStep_call :
    (machineAt 0 [0x50, 7]).HasCode (encode Config.hardware (.call 7)) ∧ (machineAt 0 [0x50, 7]).pc.toNat + 2 ≤ 255 ∧
    (machineAt 0 [0x50, 7]).sp ≠ 0 ∧
    (if (7 : RegIndex) = Config.spIndex then (machineAt 0 [0x50, 7]).sp - 1 else (machineAt 0 [0x50, 7]).reg 7).toNat =
      (machineAt 0 [0x50, 7]).sp.toNat - 1 ∧ (2 : Byte).toNat = (machineAt 0 [0x50, 7]).pc.toNat + 2 ∧
    ((next (machineAt 0 [0x50, 7])).bind next).map report = some (.halted, 1, 2, 243) :=
  ⟨hasCode_of_two (by decide) (by decide) (by decide), by decide, by decide, by decide, by decide, by decide⟩
-- A return address that is a known opcode, PUSH.
theorem witness_PushedByteIsFetchedByTheNextStep_call_known :
    ((machineAt 0x43 [0x50, 0]).setReg 0 243).HasCode (encode Config.hardware (.call 0)) ∧
    (0x45 : Byte).toNat = ((machineAt 0x43 [0x50, 0]).setReg 0 243).pc.toNat + 2 ∧
    Config.hardware.lookup 0x45 = some .push :=
  ⟨hasCode_of_two (by decide) (by decide) (by decide), by decide, by decide⟩

theorem witness_LaunchPlacesTheImage :
    ∃ s, launch [0x82, 0, 8] = some s ∧ ([0x82, 0, 8] : List Byte)[2]? = some 8 ∧ ([0x82, 0, 8] : List Byte).length ≤ 3 :=
  ⟨_, rfl, rfl, by decide⟩

theorem witness_ProgramTextIsItsLiterals :
    (∀ l ∈ [ProgramLine.mk (some 0x82) [' '] (some ['L']), ProgramLine.mk none [] none], l.Valid) ∧
    ∃ s, launch ([ProgramLine.mk (some 0x82) [' '] (some ['L']), ProgramLine.mk none [] none].filterMap ProgramLine.byte) =
      some s := by
  refine ⟨?_, _, rfl⟩
  intro l hl
  rcases List.mem_cons.mp hl with rfl | hl
  · exact ⟨by simp [isBlank], fun cs h => by cases h; decide⟩
  · rcases List.mem_singleton.mp hl with rfl
    exact ⟨by simp, fun cs h => by cases h⟩

theorem witness_HostMovesExactlyWhenItMay_running :
    (Session.mk .started (machineAt 0 [])).core.status = .running ∧
    ((Session.mk .started (machineAt 0 [])).phase ≠ .started →
      (Session.mk .started (machineAt 0 [])).core.status = .halted) := ⟨rfl, fun h => absurd rfl h⟩
theorem witness_HostMovesExactlyWhenItMay_ended :
    (Session.mk .started State.reset).act .reset = some Session.fresh ∧
    (Session.mk .started State.reset).phase = .started ∧ (Session.mk .started State.reset).core.status = .halted := by decide
theorem witness_HostMovesExactlyWhenItMay_load :
    Session.fresh.phase = .fresh ∧ (∃ img : List Byte, img.length = 256) ∧ (∃ img : List Byte, img.length = 257) ∧
    ∃ y, Session.fresh.act (.load [0x01]) = some y ∧ y.phase ≠ .started ∧ Session.fresh.core.status = .halted :=
  ⟨rfl, ⟨.replicate 256 0x01, List.length_replicate⟩, ⟨.replicate 257 0x01, List.length_replicate⟩, _, rfl, by decide, rfl⟩
theorem witness_HostMovesExactlyWhenItMay_run :
    (Session.mk .loaded State.reset).phase = .loaded ∧ (Session.mk .loaded State.reset).core.status = .halted ∧
    ∃ s, launch [0x01] = some s := ⟨rfl, rfl, _, rfl⟩

theorem witness_EveryStepKeepsTheInvariant :
    Config.hardware.Ok ∧ (machineAt 255 [0x01]).Inv ∧ ∃ t, cycle Config.hardware (machineAt 255 [0x01]) = .next t :=
  ⟨Config.hardware_ok, machineAt_hlt_inv, _, rfl⟩

theorem witness_EveryReachedStateMeetsTheInvariant :
    ∃ s t, Config.hardware.Ok ∧ launch [0x01] = some s ∧ Reaches Config.hardware s t :=
  ⟨_, _, Config.hardware_ok, rfl, .step .refl rfl⟩

theorem witness_FaultsArePrecise :
    (machineAt 255 [0xC0]).cause = .none ∧
    ∃ t, cycle Config.hardware (machineAt 255 [0xC0]) = .next t ∧ t.cause ≠ .none := ⟨rfl, _, rfl, by decide⟩

theorem witness_CausesSayWhatHappened_unknown :
    Config.hardware.Ok ∧ (machineAt 255 [0xC0]).Inv ∧ (machineAt 255 [0xC0]).cause = .none ∧
    ∃ t, cycle Config.hardware (machineAt 255 [0xC0]) = .next t ∧ t.cause = .unknownInstruction :=
  ⟨Config.hardware_ok, machineAt_unknown_inv, rfl, _, rfl, rfl⟩
theorem witness_CausesSayWhatHappened_address :
    (machineAt 256 []).Inv ∧ ∃ t, cycle Config.hardware (machineAt 256 []) = .next t ∧ t.cause = .addressOutOfRange :=
  ⟨machineAt_256_inv, _, rfl, rfl⟩
theorem witness_CausesSayWhatHappened_register :
    ∃ t, cycle Config.hardware (machineAt 254 [0x47, 8]) = .next t ∧ t.cause = .registerOutOfRange :=
  ⟨(machineAt 254 [0x47, 8]).raise (.registerOutOfRange 8), rfl, rfl⟩
theorem witness_CausesSayWhatHappened_overflow :
    ∃ t, cycle Config.hardware ((machineAt 254 [0x45, 0]).setSp 0) = .next t ∧ t.cause = .stackOverflow :=
  ⟨((machineAt 254 [0x45, 0]).setSp 0).raise .stackOverflow, rfl, rfl⟩
theorem witness_CausesSayWhatHappened_underflow :
    ∃ t, cycle Config.hardware ((machineAt 255 [0x11]).setSp 255) = .next t ∧ t.cause = .stackUnderflow :=
  ⟨((machineAt 255 [0x11]).setSp 255).raise .stackUnderflow, rfl, rfl⟩

-- A state no run reaches: CAUSE is 6 before the step, and HLT leaves it.
theorem witness_UnsupportedOperationIsUnreachable :
    ∃ t, cycle Config.hardware { machineAt 255 [0x01] with cause := .unsupportedOperation } = .next t ∧
      t.cause = .unsupportedOperation := ⟨_, rfl, rfl⟩

-- A step, for the statements whose hypotheses are Ok and a step: an output, a register, a flag, a memory, a pc change each.
theorem witness_OutputOnlyGrowsByPrnAndIsNeverRead :
    Config.hardware.Ok ∧ (machineAt 254 [0x47, 7]).HasCode (encode Config.hardware (.prn 7)) ∧
    ∃ t, cycle Config.hardware (machineAt 254 [0x47, 7]) = .next t ∧ t.out ≠ [] :=
  ⟨Config.hardware_ok, hasCode_of_two (by decide) (by decide) (by decide), _, rfl, by decide⟩
theorem witness_RegistersChangeOnlyByTheirInstructions :
    Config.hardware.Ok ∧ ∃ t, cycle Config.hardware (machineAt 253 [0x82, 7, 1]) = .next t ∧ t.sp ≠ 244 :=
  ⟨Config.hardware_ok, _, rfl, by decide⟩
theorem witness_FlagsChangeOnlyByCmp :
    Config.hardware.Ok ∧ ∃ t, cycle Config.hardware (machineAt 253 [0xA7, 7, 7]) = .next t ∧ t.flags.e = true :=
  ⟨Config.hardware_ok, _, rfl, by decide⟩
theorem witness_LessAndGreaterAreNeverRead :
    Config.hardware.Ok ∧ State.reset.status = .halted ∧
    ∃ t, cycle Config.hardware (machineAt 254 [0x55, 0]) = .next t := ⟨Config.hardware_ok, rfl, _, rfl⟩
theorem witness_MemoryChangesOnlyByPushAndCall :
    Config.hardware.Ok ∧ ∃ t, cycle Config.hardware (machineAt 254 [0x45, 7]) = .next t ∧ t.mem.read 243 = 243 :=
  ⟨Config.hardware_ok, _, rfl, by decide⟩
theorem witness_PcAfterEveryStep :
    Config.hardware.Ok ∧ ∃ t, cycle Config.hardware (machineAt 253 [0xA0, 0, 0]) = .next t ∧ t.pc.toNat = 256 :=
  ⟨Config.hardware_ok, _, rfl, by decide⟩

end Sys2Proof.Tests
end

/-! ### Encoding: what bytes that decode tell, and what bytes that are an encoding decode to -/

namespace Sys2Proof

/-- `b[7:6]` as a quotient. -/
theorem topBits_eq_div (b : Byte) : topBits b = b.toNat / 64 := by
  simp [topBits, BitVec.toNat_ushiftRight, Nat.shiftRight_eq_div_pow]

/-- The opcode byte of an instruction the machine has carries its operand count (R90 (b)). -/
theorem Config.topBits_of_lookup {c : Config} (hc : c.Ok) {b : Byte} {o : Op} (h : c.lookup b = some o) :
    topBits b = o.operandCount := by
  obtain ⟨hhas, rfl⟩ := Config.lookup_some h
  exact hc.2 o hhas

theorem decode_ok {c : Config} {bytes rest : List Byte} {i : Instr} (h : decode c bytes = .ok (i, rest)) :
    decodeFrom c (fun k => bytes[k]?) = .ok i ∧ rest = bytes.drop i.length := by
  unfold decode at h
  split at h <;> cases h
  exact ⟨‹_›, rfl⟩

theorem decode_nil_ne_ok {c : Config} {rest : List Byte} {i : Instr} : decode c [] ≠ .ok (i, rest) := by
  intro h
  obtain ⟨_, _, _, h0, _⟩ := decodeFrom_ok (decode_ok h).1
  simp at h0

/-- The bytes after an opcode byte that decodes begin with as many operand bytes as its bits 7:6 say (R80, R81). -/
theorem decode_cons_ok {c : Config} (hc : c.Ok) {b : Byte} {tail rest : List Byte} {i : Instr}
    (h : decode c (b :: tail) = .ok (i, rest)) :
    topBits b = i.op.operandCount ∧ topBits b ≤ tail.length ∧ rest = tail.drop (topBits b) := by
  obtain ⟨hfrom, hrest⟩ := decode_ok h
  have hcount : topBits b = i.op.operandCount := by
    obtain ⟨ir, _, _, h0, hl, _⟩ := decodeFrom_ok hfrom
    obtain rfl : b = ir := by simpa using h0
    exact Config.topBits_of_lookup hc hl
  have hlast : i.op.operandCount ≤ tail.length := by
    simpa using decodeFrom_ok_byteAt hc hfrom i.op.operandCount (Nat.lt_succ_self _)
  exact ⟨hcount, hcount ▸ hlast, by rw [hrest, Instr.length, hcount, List.drop_succ_cons]⟩

/-- The other bytes an opcode byte decodes with do not matter to the length: it is 1 + `b[7:6]` for all (R80). -/
theorem decode_cons_length {c : Config} (hc : c.Ok) {b : Byte} {tail rest : List Byte} {i : Instr}
    (h : decode c (b :: tail) = .ok (i, rest)) : (b :: tail).length = 1 + topBits b + rest.length := by
  obtain ⟨_, hle, rfl⟩ := decode_cons_ok hc h
  rw [List.length_cons, List.length_drop]
  omega

theorem Instr.operandBytes_length (i : Instr) : i.operandBytes.length = i.op.operandCount := by
  cases i <;> rfl

/-- The operand bytes of an encoding make its instruction again; a missing one counts as 0 and is not looked at. -/
theorem decodeOperands_operandBytes (i : Instr) :
    decodeOperands i.op (i.operandBytes.getD 0 0) (i.operandBytes.getD 1 0) = .ok i := by
  cases i <;> simp [Instr.op, Instr.operandBytes, decodeOperands, decodeR, decodeRR]

/-- Each operand stage of the decoder answers its byte of the encoding, or 0 where there is none. -/
theorem operandAt_of_encode {c : Config} {i : Instr} {byteAt : Nat → Option Byte}
    (h : ∀ k b, (encode c i)[k]? = some b → byteAt k = some b) (k : Nat) :
    operandAt byteAt i.op.operandCount (k + 1) = .ok (i.operandBytes.getD k 0) := by
  rw [← i.operandBytes_length, List.getD_eq_getElem?_getD]
  cases hb : i.operandBytes[k]? with
  | some b =>
    have hk : k < i.operandBytes.length := (List.getElem?_eq_some_iff.mp hb).1
    exact operandAt_some hk (h (k + 1) b hb)
  | none => exact operandAt_unused (Nat.lt_succ_of_le (List.getElem?_eq_none_iff.mp hb))

/-- Where the bytes of an encoding stand, the decoder reads its instruction (R90). -/
theorem decodeFrom_of_encode {c : Config} (hc : c.Ok) {i : Instr} (hi : i.wellFormed c = true)
    {byteAt : Nat → Option Byte} (h : ∀ k b, (encode c i)[k]? = some b → byteAt k = some b) :
    decodeFrom c byteAt = .ok i := by
  have hl : c.lookup (c.opcodeMap i.op) = some i.op := Config.lookup_opcode hc hi
  simp only [decodeFrom, h 0 _ rfl, hl, Config.topBits_of_lookup hc hl, operandAt_of_encode h,
    decodeOperands_operandBytes]

/-- Settles O4: bytes that decode are not empty, and `decode_cons_ok` cuts the operands off what follows the opcode byte. -/
theorem instructionLengthIsOnePlusTopBits : Obligations.InstructionLengthIsOnePlusTopBits := by
  intro c hc bytes rest i h
  cases bytes with
  | nil => exact absurd h decode_nil_ne_ok
  | cons b tail =>
    obtain ⟨hcount, hle, rfl⟩ := decode_cons_ok hc h
    simp only [← topBits_eq_div]
    refine ⟨b, tail.take (topBits b), ?_, ?_, ?_, ?_⟩
    · rw [List.take_append_drop]
    · exact List.length_take_of_le hle
    · rw [hcount]; exact Op.operandCount_le_two _
    · intro more rest' j hj
      exact decode_cons_length hc hj

namespace Machine

/-- A machine with the bytes of an instruction it has at its pc fetches that instruction. -/
theorem State.fetch_of_hasCode {c : Config} (hc : c.Ok) {s : State} {i : Instr} (hi : i.wellFormed c = true)
    (h : s.HasCode (encode c i)) : s.fetch c = .ok i := by
  have hfrom : decodeFrom c (fun k => s.memByte? (s.pc.toNat + k)) = .ok i :=
    decodeFrom_of_encode hc hi fun k b hb => s.memByte?_eq_some.mpr (h k b hb)
  simp only [State.fetch, hfrom]

/-- A running machine with the bytes of an instruction it has at its pc executes that instruction. -/
theorem cycle_of_hasCode {c : Config} (hc : c.Ok) {s : State} {i : Instr} (hs : s.status = .running)
    (hi : i.wellFormed c = true) (h : s.HasCode (encode c i)) : cycle c s = exec i s :=
  cycle_of_fetch_ok hs (State.fetch_of_hasCode hc hi h)

theorem exec_ldi (r : RegIndex) (v : Byte) (s : State) :
    exec (.ldi r v) s = .next ((s.setReg r v).advance 2) := rfl

/-- Writing a register leaves every other one, also with the pc advanced. -/
theorem sameRegsBut_setReg_advance (s : State) (r : RegIndex) (v : Byte) (n : Nat) :
    SameRegsBut [r] s ((s.setReg r v).advance n) := by
  intro q hq
  rw [State.advance_reg]
  exact s.reg_setReg_other v (List.ne_of_not_mem_cons hq)

/-- Settles O13: LDI is a register write and the pc's advance by 3, and the step at its bytes, whatever the second operand
byte is, executes it (`cycle_of_hasCode`; R85, R151). -/
theorem ldiLoadsItsOperandByte : Obligations.LdiLoadsItsOperandByte := by
  constructor
  · intro s r v
    refine ⟨_, exec_ldi r v s, ?_, sameRegsBut_setReg_advance s r v 2, ?_, rfl, ⟨rfl, rfl, rfl⟩, rfl, fun _ => rfl⟩
    · rw [State.advance_reg, State.reg_setReg_same]
    · intro hpc
      exact State.advance_pc_toNat _ (by rw [State.setReg_pc]; omega)
  · intro c s r v hc hs hcode
    exact cycle_of_hasCode hc (i := .ldi r v) hs rfl hcode

end Machine

end Sys2Proof

/-! ### Encoding: decoding an encoding, and the encoding of what was decoded -/

namespace Sys2Proof

theorem encode_length (c : Config) (i : Instr) : (encode c i).length = i.length := by
  rw [encode, List.length_cons, i.operandBytes_length, Instr.length]

/-- Settles O2: the decoder reads an instruction where its encoding stands (`decodeFrom_of_encode`), and drops exactly the
encoding's length. -/
theorem encodedInstructionDecodesToItself : Obligations.EncodedInstructionDecodesToItself := by
  intro c hc i rest hi
  have hfrom : decodeFrom c (fun k => (encode c i ++ rest)[k]?) = .ok i :=
    decodeFrom_of_encode hc hi fun k b hb => by
      rwa [List.getElem?_append_left (List.getElem?_eq_some_iff.mp hb).1]
  have hdrop : (encode c i ++ rest).drop i.length = rest := List.drop_left' (encode_length c i)
  simp only [decode, hfrom, hdrop]

/-- The operand bytes an instruction was made of are those of its encoding: no bit of them is dropped (R84). -/
theorem operandBytes_of_decodeOperands {o : Op} {x y : Byte} {i : Instr} (h : decodeOperands o x y = .ok i) :
    i.operandBytes = [x, y].take o.operandCount := by
  cases o <;> simp only [decodeOperands] at h
  case hlt | ret => cases h; rfl
  case add | mul | cmp | sub =>
    obtain ⟨a, b, ha, hb, rfl⟩ := decodeRR_ok h
    simp [Instr.operandBytes, Op.operandCount, regByte_of_regIndex ha, regByte_of_regIndex hb]
  all_goals
    obtain ⟨r, hr, rfl⟩ := decodeR_ok h
    simp [Instr.operandBytes, Op.operandCount, regByte_of_regIndex hr]

/-- A decoded instruction's encoding stands where it was decoded from. -/
theorem encode_of_decodeFrom {c : Config} (hc : c.Ok) {byteAt : Nat → Option Byte} {i : Instr}
    (h : decodeFrom c byteAt = .ok i) : ∀ k b, (encode c i)[k]? = some b → byteAt k = some b := by
  obtain ⟨ir, x, y, h0, hl, h1, h2, hops⟩ := decodeFrom_ok h
  have hcode : encode c i = (ir :: [x, y]).take (i.op.operandCount + 1) := by
    rw [encode, (Config.lookup_some hl).2, operandBytes_of_decodeOperands hops, List.take_succ_cons]
  rw [Config.topBits_of_lookup hc hl] at h1 h2
  intro k b hb
  rw [hcode, List.getElem?_take] at hb
  split at hb
  · next hk =>
    match k with
    | 0 => rwa [List.getElem?_cons_zero, ← h0] at hb
    | 1 => rw [operandAt_ok h1 (by omega)]; simpa using hb
    | 2 => rw [operandAt_ok h2 (by omega)]; simpa using hb
    | k + 3 => simp at hb
  · cases hb

/-- Settles O3: the bytes begin with the encoding (`encode_of_decodeFrom`), and what was left is the rest of them. -/
theorem decodedBytesAreTheEncoding : Obligations.DecodedBytesAreTheEncoding := by
  intro c hc bytes rest i h
  obtain ⟨hfrom, rfl⟩ := decode_ok h
  obtain ⟨_, _, _, _, hl, _⟩ := decodeFrom_ok hfrom
  have hpre : encode c i <+: bytes := by
    rw [List.prefix_iff_getElem?]
    intro k hk
    exact encode_of_decodeFrom hc hfrom k _ (List.getElem?_eq_getElem hk)
  obtain ⟨rest, rfl⟩ := hpre
  exact ⟨(Config.lookup_some hl).1, by rw [List.drop_left' (encode_length c i)]⟩

/-- The instructions a machine has, as rows of the opcode map. -/
def Config.rows (c : Config) : Finset Op := Op.all.toFinset.filter fun o => c.has o = true

theorem Config.mem_rows {c : Config} {o : Op} : o ∈ c.rows ↔ c.has o = true := by
  have hall : o ∈ Op.all := by cases o <;> decide
  simp [Config.rows, hall]

theorem Config.card_rows (c : Config) : c.rows.card = if c.hasSub then 14 else 13 := by
  have hsplit : c.rows = if c.hasSub then Op.all.toFinset else Op.all.toFinset.erase .sub := by
    ext o
    rw [Config.mem_rows]
    cases hs : c.hasSub <;> cases o <;> simp [Config.has, hs, Op.all]
  rw [hsplit]
  split <;> decide

/-- Settles O5: the known bytes are the image of the machine's rows, one byte for each (R90 (a)), and bits 7:6 of a known byte
are an operand count, at most 2 (R90 (b)). -/
theorem unknownOpcodesAreAllTheOthers : Obligations.UnknownOpcodesAreAllTheOthers := by
  intro c hc
  constructor
  · have hcompl : (Finset.univ.filter fun n : Fin 256 => c.lookup (BitVec.ofFin n) = none) =
        (c.rows.image fun o => (c.opcodeMap o).toFin)ᶜ := by
      ext n
      simp only [Finset.mem_filter, Finset.mem_univ, true_and, Finset.mem_compl, Finset.mem_image, Config.mem_rows,
        Config.lookup_none, not_exists, not_and, ne_eq]
      exact forall₂_congr fun o _ => not_congr ⟨fun h => by rw [h], fun h => by rw [← h]⟩
    have hinj : Set.InjOn (fun o => (c.opcodeMap o).toFin) c.rows := fun o ho p hp he =>
      hc.1 o p (Config.mem_rows.mp ho) (Config.mem_rows.mp hp) (BitVec.eq_of_toFin_eq he)
    rw [hcompl, Finset.card_compl, Finset.card_image_of_injOn hinj, Config.card_rows, Fintype.card_fin]
    split <;> rfl
  · intro b hb
    cases hl : c.lookup b with
    | none => rfl
    | some o =>
      have hcount : b.toNat / 64 = o.operandCount := topBits_eq_div b ▸ Config.topBits_of_lookup hc hl
      have := o.operandCount_le_two
      omega

end Sys2Proof

/-! ### Fetching: what the bytes at the pc make of the fetch stage -/

namespace Sys2Proof

open Machine

/-- The operand bytes an operation does not have are not looked at, so the decoder answers what the bytes it has make
(R113). -/
theorem decodeFrom_of_operands {c : Config} (hc : c.Ok) {o : Op} (hhas : c.has o = true) {x y : Byte}
    {byteAt : Nat → Option Byte}
    (h : ∀ k b, ((c.opcodeMap o :: [x, y]).take (o.operandCount + 1))[k]? = some b → byteAt k = some b) :
    decodeFrom c byteAt = decodeOperands o x y := by
  have hl : c.lookup (c.opcodeMap o) = some o := Config.lookup_opcode hc hhas
  have h0 : byteAt 0 = some (c.opcodeMap o) := h 0 _ rfl
  simp only [decodeFrom, h0, hl, Config.topBits_of_lookup hc hl]
  cases o
  case hlt | ret => rfl
  case ldi | add | mul | cmp | sub =>
    have h1 : operandAt byteAt 2 1 = .ok x := operandAt_some (by omega) (h 1 x rfl)
    have h2 : operandAt byteAt 2 2 = .ok y := operandAt_some le_rfl (h 2 y rfl)
    simp only [Op.operandCount, h1, h2]
  all_goals
    have h1 : operandAt byteAt 1 1 = .ok x := operandAt_some le_rfl (h 1 x rfl)
    simp only [Op.operandCount, h1]
    rfl

/-- The check of R114 refuses only a byte above 7, and names it. -/
theorem regIndex_error_ge {b : Byte} {e : DecodeError} (h : regIndex b = .error e) :
    e = .registerOutOfRange b ∧ 8 ≤ b.toNat := by
  refine ⟨regIndex_error h, ?_⟩
  by_contra hlt
  rw [regIndex_of_lt (by omega)] at h
  cases h

theorem decodeR_error_ge {mk : RegIndex → Instr} {b : Byte} {e : DecodeError} (h : decodeR mk b = .error e) :
    e = .registerOutOfRange b ∧ 8 ≤ b.toNat := by
  unfold decodeR at h
  split at h <;> cases h
  exact regIndex_error_ge ‹_›

theorem decodeRR_error_ge {mk : RegIndex → RegIndex → Instr} {b d : Byte} {e : DecodeError}
    (h : decodeRR mk b d = .error e) :
    (e = .registerOutOfRange b ∧ 8 ≤ b.toNat) ∨ (e = .registerOutOfRange d ∧ 8 ≤ d.toNat) := by
  unfold decodeRR at h
  split at h
  · cases h; exact .inl (regIndex_error_ge ‹_›)
  · split at h <;> cases h
    exact .inr (regIndex_error_ge ‹_›)

/-- Operand bytes are refused only for a byte above 7 in a register's place (R114). -/
theorem decodeOperands_error_ge {o : Op} {x y : Byte} {e : DecodeError} (h : decodeOperands o x y = .error e) :
    (1 ≤ registerOperands o ∧ e = .registerOutOfRange x ∧ 8 ≤ x.toNat) ∨
    (registerOperands o = 2 ∧ e = .registerOutOfRange y ∧ 8 ≤ y.toNat) := by
  cases o <;> simp only [decodeOperands] at h
  case hlt | ret => cases h
  case add | mul | cmp | sub =>
    obtain hx | hy := decodeRR_error_ge h
    · exact .inl ⟨Nat.le_succ 1, hx⟩
    · exact .inr ⟨rfl, hy⟩
  all_goals exact .inl ⟨le_rfl, decodeR_error_ge h⟩

/-- A first register operand above 7 is refused, whatever the second operand is (R114). -/
theorem decodeOperands_of_first_ge {o : Op} {x : Byte} (y : Byte) (ho : 1 ≤ registerOperands o) (hx : 8 ≤ x.toNat) :
    decodeOperands o x y = .error (.registerOutOfRange x) := by
  cases o <;> simp [registerOperands, decodeOperands, decodeR, decodeRR, regIndex_of_ge hx] at ho ⊢

/-- A second register operand above 7 is refused behind a good first one (R114). -/
theorem decodeOperands_of_second_ge {o : Op} {x y : Byte} (ho : registerOperands o = 2) (hx : x.toNat < 8)
    (hy : 8 ≤ y.toNat) : decodeOperands o x y = .error (.registerOutOfRange y) := by
  cases o <;> simp [registerOperands, decodeOperands, decodeRR, regIndex_of_lt hx, regIndex_of_ge hy] at ho ⊢

/-- Register operands of 0 to 7 make an instruction (R84). -/
theorem decodeOperands_of_lt {o : Op} {x y : Byte} (hx : 1 ≤ registerOperands o → x.toNat < 8)
    (hy : registerOperands o = 2 → y.toNat < 8) : ∃ i, decodeOperands o x y = .ok i := by
  cases hd : decodeOperands o x y with
  | ok i => exact ⟨i, rfl⟩
  | error e =>
    obtain ⟨ho, _, hge⟩ | ⟨ho, _, hge⟩ := decodeOperands_error_ge hd
    · have := hx ho
      omega
    · have := hy ho
      omega

/-- Everything a refusal of the decoder says of the bytes it came from. -/
theorem decodeFrom_error {c : Config} {byteAt : Nat → Option Byte} {e : DecodeError}
    (h : decodeFrom c byteAt = .error e) :
    (∃ k ≤ 2, e = .outOfBytes k ∧ byteAt k = none ∧ ∀ j < k, (byteAt j).isSome = true) ∨
    (∃ ir, e = .unknownInstruction ir ∧ byteAt 0 = some ir ∧ c.lookup ir = none) ∨
    (∃ b, e = .registerOutOfRange b ∧ 8 ≤ b.toNat) := by
  unfold decodeFrom at h
  split at h
  · cases h
    exact .inl ⟨0, by omega, rfl, ‹_›, fun j hj => absurd hj (Nat.not_lt_zero j)⟩
  · next ir h0 =>
    split at h
    · cases h
      exact .inr (.inl ⟨ir, rfl, h0, ‹_›⟩)
    · split at h
      · next h1 =>
        cases h
        obtain ⟨rfl, _, hnone⟩ := operandAt_error h1
        refine .inl ⟨1, by omega, rfl, hnone, fun j hj => ?_⟩
        obtain rfl : j = 0 := by omega
        exact Option.isSome_of_eq_some h0
      · next h1 =>
        split at h
        · next h2 =>
          cases h
          obtain ⟨rfl, hn, hnone⟩ := operandAt_error h2
          refine .inl ⟨2, by omega, rfl, hnone, fun j hj => ?_⟩
          obtain rfl | rfl : j = 0 ∨ j = 1 := by omega
          · exact Option.isSome_of_eq_some h0
          · exact Option.isSome_of_eq_some (operandAt_ok h1 (by omega))
        · obtain ⟨_, he, hge⟩ | ⟨_, he, hge⟩ := decodeOperands_error_ge h
          · exact .inr (.inr ⟨_, he, hge⟩)
          · exact .inr (.inr ⟨_, he, hge⟩)

namespace Machine

/-- The answer of the fetch stage, from the decoder's. -/
theorem State.fetch_of_decodeFrom_ok {c : Config} {s : State} {i : Instr}
    (h : decodeFrom c (fun k => s.memByte? (s.pc.toNat + k)) = .ok i) : s.fetch c = .ok i := by
  simp only [State.fetch, h]

theorem State.fetch_of_decodeFrom_error {c : Config} {s : State} {e : DecodeError}
    (h : decodeFrom c (fun k => s.memByte? (s.pc.toNat + k)) = .error e) :
    s.fetch c = .error (fetchFault s.pc.toNat e) := by
  simp only [State.fetch, h]

/-- A fetched instruction's encoding is at the pc. -/
theorem State.hasCode_of_fetch {c : Config} (hc : c.Ok) {s : State} {i : Instr} (h : s.fetch c = .ok i) :
    s.HasCode (encode c i) := fun k b hb =>
  s.memByte?_eq_some.mp (encode_of_decodeFrom hc (State.fetch_ok h) k b hb)

/-- The byte at the pc selects a fetched instruction's row. -/
theorem State.lookup_of_fetch {c : Config} {s : State} {i : Instr} (h : s.fetch c = .ok i) :
    c.lookup (s.mem.read s.pc.toNat) = some i.op := by
  obtain ⟨ir, _, _, h0, hl, _⟩ := decodeFrom_ok (State.fetch_ok h)
  obtain ⟨_, rfl⟩ := s.memByte?_eq_some.mp h0
  exact hl

/-- With the opcode byte of `o` and its operand bytes at the pc, the fetch is what those bytes make. -/
theorem State.decodeFrom_of_hasCode {c : Config} (hc : c.Ok) {s : State} {o : Op} (hhas : c.has o = true) {x y : Byte}
    (h : s.HasCode ((c.opcodeMap o :: [x, y]).take (o.operandCount + 1))) :
    decodeFrom c (fun k => s.memByte? (s.pc.toNat + k)) = decodeOperands o x y :=
  decodeFrom_of_operands hc hhas fun k b hb => s.memByte?_eq_some.mpr (h k b hb)

/-- R111: no byte is fetched above address 255. -/
theorem State.fetch_of_pc_ge {c : Config} {s : State} (h : 256 ≤ s.pc.toNat) :
    s.fetch c = .error (.addressOutOfRange s.pc.toNat) := by
  have h0 : s.memByte? (s.pc.toNat + 0) = none := s.memByte?_of_ge h
  exact State.fetch_of_decodeFrom_error (e := .outOfBytes 0) (by simp only [decodeFrom, h0])

/-- R112: an opcode byte of no row is reported, before any operand is looked at. -/
theorem State.fetch_of_unknown {c : Config} {s : State} (h : s.pc.toNat < 256)
    (hl : c.lookup (s.mem.read s.pc.toNat) = none) :
    s.fetch c = .error (.unknownInstruction (s.mem.read s.pc.toNat)) := by
  have h0 : s.memByte? (s.pc.toNat + 0) = some (s.mem.read s.pc.toNat) := s.memByte?_of_lt h
  exact State.fetch_of_decodeFrom_error (e := .unknownInstruction (s.mem.read s.pc.toNat))
    (by simp only [decodeFrom, h0, hl])

/-- R113: an operand byte that the opcode has and the memory has not is reported by its address, which is 256. -/
theorem State.fetch_of_missing_operand {c : Config} (hc : c.Ok) {s : State} {o : Op} (h : s.pc.toNat < 256)
    (hl : c.lookup (s.mem.read s.pc.toNat) = some o) (hn : 256 ≤ s.pc.toNat + o.operandCount) :
    s.fetch c = .error (.addressOutOfRange 256) := by
  have h0 : s.memByte? (s.pc.toNat + 0) = some (s.mem.read s.pc.toNat) := s.memByte?_of_lt h
  have hcount : topBits (s.mem.read s.pc.toNat) = o.operandCount := Config.topBits_of_lookup hc hl
  have hle : o.operandCount ≤ 2 := o.operandCount_le_two
  obtain hpc | hpc : s.pc.toNat + 1 = 256 ∨ s.pc.toNat + 2 = 256 := by omega
  · have h1 : operandAt (fun k => s.memByte? (s.pc.toNat + k)) o.operandCount 1 = .error (.outOfBytes 1) :=
      operandAt_none (by omega) (s.memByte?_of_ge (by omega))
    rw [← hpc]
    exact State.fetch_of_decodeFrom_error (e := .outOfBytes 1) (by simp only [decodeFrom, h0, hl, hcount, h1])
  · have h1 : operandAt (fun k => s.memByte? (s.pc.toNat + k)) o.operandCount 1 =
        .ok (s.mem.read (s.pc.toNat + 1)) := operandAt_some (by omega) (s.memByte?_of_lt (by omega))
    have h2 : operandAt (fun k => s.memByte? (s.pc.toNat + k)) o.operandCount 2 = .error (.outOfBytes 2) :=
      operandAt_none (by omega) (s.memByte?_of_ge (by omega))
    rw [← hpc]
    exact State.fetch_of_decodeFrom_error (e := .outOfBytes 2) (by simp only [decodeFrom, h0, hl, hcount, h1, h2])

/-- The bytes that stand at the pc, as code. -/
theorem State.hasCode_take {c : Config} {s : State} {o : Op} (hl : c.lookup (s.mem.read s.pc.toNat) = some o)
    {n : Nat} (hn : s.pc.toNat + n < 256) :
    s.HasCode ((c.opcodeMap o :: [s.mem.read (s.pc.toNat + 1), s.mem.read (s.pc.toNat + 2)]).take (n + 1)) := by
  intro k b hb
  rw [(Config.lookup_some hl).2, List.getElem?_take] at hb
  split at hb
  · next hk =>
    refine ⟨by unfold Config.memSize; omega, ?_⟩
    match k with
    | 0 | 1 | 2 => simpa using hb
    | k + 3 => simp at hb
  · cases hb

/-- What each refusal of the fetch stage says of the bytes at the pc (R111 to R114). -/
theorem State.fetch_error_cases {c : Config} {s : State} {f : CoreFault} (h : s.fetch c = .error f) :
    (∃ k ≤ 2, f = .addressOutOfRange (s.pc.toNat + k) ∧ 256 ≤ s.pc.toNat + k ∧ ∀ j < k, s.pc.toNat + j < 256) ∨
    (f = .unknownInstruction (s.mem.read s.pc.toNat) ∧ c.lookup (s.mem.read s.pc.toNat) = none) ∨
    (∃ b, f = .registerOutOfRange b ∧ 8 ≤ b.toNat) := by
  unfold State.fetch at h
  split at h
  · cases h
  · next e he =>
    cases h
    obtain ⟨k, hk, rfl, hnone, hsome⟩ | ⟨ir, rfl, hir, hl⟩ | ⟨b, rfl, hb⟩ := decodeFrom_error he
    · refine .inl ⟨k, hk, rfl, s.memByte?_eq_none.mp hnone, fun j hj => ?_⟩
      obtain ⟨b, hb⟩ := Option.isSome_iff_exists.mp (hsome j hj)
      exact (s.memByte?_eq_some.mp hb).1
    · obtain ⟨_, rfl⟩ := s.memByte?_eq_some.mp hir
      exact .inr (.inl ⟨rfl, hl⟩)
    · exact .inr (.inr ⟨b, rfl, hb⟩)

/-- The bytes from the pc on are those the fetch stage reads. -/
theorem State.codeFromPc_getElem? (s : State) (k : Nat) : s.codeFromPc[k]? = s.memByte? (s.pc.toNat + k) := by
  unfold State.codeFromPc State.memByte?
  rw [List.getElem?_map]
  by_cases hk : s.pc.toNat + k < Config.memSize
  · rw [if_pos hk, List.getElem?_range (by omega)]
    rfl
  · rw [if_neg hk, List.getElem?_eq_none (by rw [List.length_range]; omega)]
    rfl

end Machine

end Sys2Proof

/-! ### Effects: what the effect of an instruction does to each part of the state, by the instruction -/

namespace Sys2Proof.Machine

section
variable (s : State) (taken : Bool) (r q : RegIndex)

/-- A jump that is taken or not writes the pc alone (R180). -/
theorem State.branch_eq :
    s.branch taken r = { s with pc := if taken then zext9 (s.reg r) else s.pc + BitVec.ofNat 9 2 } := by
  cases taken <;> rfl

@[simp] theorem State.branch_pc :
    (s.branch taken r).pc = if taken then zext9 (s.reg r) else s.pc + BitVec.ofNat 9 2 := by rw [s.branch_eq]
@[simp] theorem State.branch_flags : (s.branch taken r).flags = s.flags := by rw [s.branch_eq]
@[simp] theorem State.branch_status : (s.branch taken r).status = s.status := by rw [s.branch_eq]
@[simp] theorem State.branch_cause : (s.branch taken r).cause = s.cause := by rw [s.branch_eq]
@[simp] theorem State.branch_info : (s.branch taken r).info = s.info := by rw [s.branch_eq]
@[simp] theorem State.branch_mem : (s.branch taken r).mem = s.mem := by rw [s.branch_eq]
@[simp] theorem State.branch_out : (s.branch taken r).out = s.out := by rw [s.branch_eq]
@[simp] theorem State.branch_reg : (s.branch taken r).reg q = s.reg q := by rw [s.branch_eq]; rfl

end

/-- Any register after a pop's second half. -/
theorem State.reg_closeSlot (s : State) (q : RegIndex) :
    s.closeSlot.reg q = if q = Config.spIndex then s.sp + 1 else s.reg q := s.reg_setSp q _

/-- Any register after an ALU operation. -/
theorem State.reg_aluWrite (s : State) (op : AluOp) (a b q : RegIndex) :
    (s.aluWrite op a b).reg q =
      if q = a then trunc8 (op.exact (s.reg a).toNat (s.reg b).toNat) else s.reg q := s.reg_setReg a q _

/-- The value a push of `r` stores, and a CALL through `r` jumps to: `x[r]` after SP was decremented (D17). -/
theorem State.reg_decremented (s : State) (r : RegIndex) :
    (s.setSp (s.sp - 1)).reg r = if r = Config.spIndex then s.sp - 1 else s.reg r := s.reg_setSp r _

/-- What an instruction appends to OUT: PRN its register, any other nothing (R152). -/
def printedBy : Instr → State → List Byte
  | .prn r, s => [s.reg r]
  | _, _ => []

section
variable (i : Instr) (s : State)

@[simp] theorem effect_cause : (effect i s).cause = s.cause := by cases i <;> simp [effect]

@[simp] theorem effect_info : (effect i s).info = s.info := by cases i <;> simp [effect]

/-- Of the instructions HLT alone changes STATUS (R190). -/
@[simp] theorem effect_status : (effect i s).status = if i = .hlt then .halted else s.status := by
  cases i <;> simp [effect]

@[simp] theorem effect_out : (effect i s).out = s.out ++ printedBy i s := by
  cases i <;> simp [effect, printedBy]

/-- The flags change by CMP alone (R28). -/
theorem effect_flags : (effect i s).flags = s.flags ∨ ∃ a b, i = .cmp a b := by
  cases i <;> simp [effect]

/-- The registers an instruction changes are those the table of R21 gives it as written. -/
theorem effect_reg {q : RegIndex} (hq : q ∉ writtenRegs i) : (effect i s).reg q = s.reg q := by
  cases i <;>
    simp only [writtenRegs, List.mem_cons, List.not_mem_nil, or_false, not_or] at hq <;>
    simp [effect, hq, State.reg_setReg, State.reg_setSp, State.reg_closeSlot, State.reg_aluWrite]

/-- The memory changes by PUSH and CALL alone, at the one cell below the stack's top (R53, R165, R167). -/
theorem effect_mem : (effect i s).mem = s.mem ∨
    ((∃ r, i = .push r ∨ i = .call r) ∧ ∃ v, (effect i s).mem = s.mem.write s.pushAddress v) := by
  cases i <;> simp [effect]

/-- Every instruction keeps the canonical form of the memory. -/
theorem effect_mem_wf (h : s.mem.wf = true) : (effect i s).mem.wf = true := by
  obtain hm | ⟨_, v, hm⟩ := effect_mem i s <;> rw [hm]
  · exact h
  · exact Memory.wf_write v s.pushAddress_lt h

/-- The pc goes to a byte's address or takes the common advance (R26). -/
theorem effect_pc : (∃ v : Byte, (effect i s).pc = zext9 v) ∨
    (effect i s).pc = s.pc + BitVec.ofNat 9 i.length := by
  cases i with
  | ret | call _ | jmp _ => exact .inl ⟨_, rfl⟩
  | jeq r | jne r =>
    rw [effect, State.branch_pc]
    split
    · exact .inl ⟨_, rfl⟩
    · exact .inr rfl
  | _ => exact .inr rfl

end

/-- The common advance is exact up to the end of the memory. -/
theorem State.pc_add_toNat (s : State) {n : Nat} (h : s.pc.toNat + n ≤ 256) :
    (s.pc + BitVec.ofNat 9 n).toNat = s.pc.toNat + n := by
  rw [BitVec.toNat_add, BitVec.toNat_ofNat]
  omega

section
variable {x y : Byte}

/-- The three outcomes of CMP (R135, R136). -/
theorem compareFlags_of_eq (h : x.toNat = y.toNat) : compareFlags x y = ⟨true, false, false⟩ := by
  simp [compareFlags, h]
theorem compareFlags_of_lt (h : x.toNat < y.toNat) : compareFlags x y = ⟨false, true, false⟩ := by
  simp [compareFlags, h, h.ne, h.le]
theorem compareFlags_of_gt (h : x.toNat > y.toNat) : compareFlags x y = ⟨false, false, true⟩ := by
  simp [compareFlags, h, h.ne', h.le]

end

theorem compareFlags_cases (x y : Byte) :
    compareFlags x y = ⟨true, false, false⟩ ∨ compareFlags x y = ⟨false, true, false⟩ ∨
      compareFlags x y = ⟨false, false, true⟩ := by
  obtain h | h | h := lt_trichotomy x.toNat y.toNat
  · exact .inr (.inl (compareFlags_of_lt h))
  · exact .inl (compareFlags_of_eq h)
  · exact .inr (.inr (compareFlags_of_gt h))

end Sys2Proof.Machine

/-! ### The step: its checks in their order, its faults, and how runs are made of steps -/

namespace Sys2Proof.Machine

/-- Settles O6: the bytes from the pc on are those the fetch stage reads, so it answers what they decode to. -/
theorem stepRunsDecodedInstruction : Obligations.StepRunsDecodedInstruction := by
  refine ⟨fun _ => rfl, fun c s i rest hs h => ?_⟩
  have hfrom := (decode_ok h).1
  simp only [State.codeFromPc_getElem?] at hfrom
  exact cycle_of_fetch_ok hs (State.fetch_of_decodeFrom_ok hfrom)

/-- A running machine whose operand bytes make no instruction takes the register fault of the byte they are refused for. -/
theorem cycle_of_decodeOperands_error {c : Config} (hc : c.Ok) {s : State} (hs : s.status = .running) {o : Op}
    (hhas : c.has o = true) {x y b : Byte} (h : s.HasCode ((c.opcodeMap o :: [x, y]).take (o.operandCount + 1)))
    (hd : decodeOperands o x y = .error (.registerOutOfRange b)) :
    cycle c s = .next (s.raise (.registerOutOfRange b)) :=
  cycle_of_fetch_error hs <| State.fetch_of_decodeFrom_error (e := .registerOutOfRange b) <| by
    rw [State.decodeFrom_of_hasCode hc hhas h, hd]

/-- Settles O7: each check is the fetch stage's lemma about it, and where all pass the operand bytes make the instruction whose
encoding is at the pc. -/
theorem stepChecksInOrder : Obligations.StepChecksInOrder := by
  intro c s hc hs
  refine ⟨fun hpc => cycle_of_fetch_error hs (State.fetch_of_pc_ge hpc),
    fun hpc hl => cycle_of_fetch_error hs (State.fetch_of_unknown hpc hl), fun o hpc hl => ⟨?_, ?_, ?_⟩⟩
  · intro hn hend
    exact cycle_of_fetch_error hs (State.fetch_of_missing_operand hc hpc hl (by omega))
  · intro hn hend
    exact cycle_of_fetch_error hs (State.fetch_of_missing_operand hc hpc hl (by omega))
  · intro hend
    have hhas : c.has o = true := (Config.lookup_some hl).1
    have hcode := State.hasCode_take hl hend
    refine ⟨fun ho hx => ?_, fun ho hx hy => ?_, fun hx hy => ?_⟩
    · exact cycle_of_decodeOperands_error hc hs hhas hcode (decodeOperands_of_first_ge _ ho hx)
    · exact cycle_of_decodeOperands_error hc hs hhas hcode (decodeOperands_of_second_ge ho hx hy)
    · obtain ⟨i, hi⟩ := decodeOperands_of_lt hx hy
      have hfetch : s.fetch c = .ok i :=
        State.fetch_of_decodeFrom_ok (by rw [State.decodeFrom_of_hasCode hc hhas hcode, hi])
      exact ⟨i, decodeOperands_op hi, State.hasCode_of_fetch hc hfetch, cycle_of_fetch_ok hs hfetch⟩

/-- A raised fault changes STATUS, CAUSE and INFO alone (R206). -/
theorem faultOnly_raise (s : State) (f : CoreFault) : FaultOnly s (s.raise f) :=
  ⟨rfl, rfl, rfl, rfl, fun _ _ => rfl, fun _ => rfl⟩

theorem cycle_of_halted {c : Config} {s : State} (h : s.status = .halted) : cycle c s = .fault .halted := by
  simp only [cycle, h]

/-- INFO keeps a whole byte. -/
theorem setWidth_nine_toNat (b : Byte) : (b.setWidth 9).toNat = b.toNat := zext9_toNat b

/-- Settles O8: the step raises the fault (`State.fetch_of_unknown`), and from the state it leaves no step is defined. -/
theorem unknownOpcodeEndsTheRun : Obligations.UnknownOpcodeEndsTheRun := by
  refine ⟨fun c s hs hpc hl => ?_, by decide⟩
  refine ⟨_, cycle_of_fetch_error hs (State.fetch_of_unknown hpc hl), faultOnly_raise s _, rfl, ?_, ?_, ?_⟩
  · exact setWidth_nine_toNat _
  · exact (by decide : Cause.code .unknownInstruction ≠ 0)
  · exact cycle_of_halted rfl

/-- The register fault of a step, with everything the statements say of it. -/
theorem exists_registerFault {c : Config} {s : State} {b : Byte}
    (h : cycle c s = .next (s.raise (.registerOutOfRange b))) :
    ∃ t, cycle c s = .next t ∧ FaultOnly s t ∧ t.cause = .registerOutOfRange ∧ t.info.toNat = b.toNat :=
  ⟨_, h, faultOnly_raise s _, rfl, setWidth_nine_toNat b⟩

/-- No instruction of its own raises RegisterOutOfRange: the check of R114 comes before it. -/
theorem exec_cause_ne_registerOutOfRange {i : Instr} {s t : State} (hs : s.cause ≠ .registerOutOfRange)
    (h : exec i s = .next t) : t.cause ≠ .registerOutOfRange := by
  obtain ⟨f, hf, rfl⟩ | ⟨_, rfl⟩ := exec_cases h
  · obtain ⟨a, rfl⟩ | rfl | rfl := ownFault_kind hf <;> simp [CoreFault.cause]
  · rwa [effect_cause]

/-- Settles O9: the operand bytes are refused for the first register byte above 7, and HLT and RET have none, so they are
fetched and raise only faults of their own. -/
theorem registerOperandAboveSevenFaults : Obligations.RegisterOperandAboveSevenFaults := by
  intro c s o x y hc hhas hs hcode
  refine ⟨fun hhlt hret hx => ?_, fun ho hx hy => ?_, fun ho hcause t ht => ?_⟩
  · have hfirst : 1 ≤ registerOperands o := by cases o <;> simp_all [registerOperands]
    exact exists_registerFault
      (cycle_of_decodeOperands_error hc hs hhas hcode (decodeOperands_of_first_ge y hfirst hx))
  · have hsecond : registerOperands o = 2 := by obtain rfl | rfl | rfl | rfl := ho <;> rfl
    exact exists_registerFault
      (cycle_of_decodeOperands_error hc hs hhas hcode (decodeOperands_of_second_ge hsecond hx hy))
  · obtain ⟨i, hi⟩ : ∃ i, decodeOperands o x y = .ok i := by obtain rfl | rfl := ho <;> exact ⟨_, rfl⟩
    have hfetch : s.fetch c = .ok i :=
      State.fetch_of_decodeFrom_ok (by rw [State.decodeFrom_of_hasCode hc hhas hcode, hi])
    rw [cycle_of_fetch_ok hs hfetch] at ht
    exact exec_cause_ne_registerOutOfRange (by simp [hcause]) ht

/-- A running machine takes a step, to a next state. -/
theorem exists_cycle_next (c : Config) {s : State} (hs : s.status = .running) : ∃ t, cycle c s = .next t := by
  cases hf : s.fetch c with
  | error f => exact ⟨_, cycle_of_fetch_error hs hf⟩
  | ok i => exact ⟨_, (cycle_of_fetch_ok hs hf).trans (exec_eq i s)⟩

/-- Settles O10: a running machine takes the fault of its fetch or executes what it fetched, and `exec_eq` has a next state for both. -/
theorem runningMachinesStepAndHaltedOnesDoNot : Obligations.RunningMachinesStepAndHaltedOnesDoNot :=
  fun c _ => ⟨cycle_of_halted, exists_cycle_next c⟩

/-- What a step can do, of an admissible machine: raise a fault, or have the effect of an instruction it has, whose bytes are
at the pc and which raises nothing. -/
theorem cycle_raise_or_effect {c : Config} (hc : c.Ok) {s t : State} (h : cycle c s = .next t) :
    (∃ f, t = s.raise f) ∨
    ∃ i : Instr, s.fetch c = .ok i ∧ s.HasCode (encode c i) ∧ ownFault i s = none ∧ t = effect i s := by
  obtain ⟨_, ⟨f, _, ht⟩ | ⟨_, f, _, _, ht⟩ | ⟨i, hi, hown, ht⟩⟩ := cycle_cases h
  · exact .inl ⟨f, ht⟩
  · exact .inl ⟨f, ht⟩
  · exact .inr ⟨i, hi, State.hasCode_of_fetch hc hi, hown, ht⟩

/-- Settles O11: of the effects HLT's alone changes STATUS (`effect_status`), and the state before a step is running. -/
theorem onlyHltAndFaultsHalt : Obligations.OnlyHltAndFaultsHalt := by
  intro c s t hc h hhalt
  obtain hf | ⟨i, _, hcode, _, rfl⟩ := cycle_raise_or_effect hc h
  · exact .inr hf
  · have hrun : s.status = .running := (cycle_cases h).1
    have hi : i = .hlt := by
      by_contra hne
      rw [effect_status, if_neg hne, hrun] at hhalt
      cases hhalt
    subst hi
    exact .inl ⟨hcode, effect_cause _ s, effect_info _ s⟩

theorem runFor_of_halted (c : Config) {s : State} (h : s.status = .halted) : ∀ n, runFor c n s = s
  | 0 => rfl
  | n + 1 => by simp only [runFor, cycle_of_halted h]

theorem runFor_succ_of_next {c : Config} {s t : State} (h : cycle c s = .next t) (n : Nat) :
    runFor c (n + 1) s = runFor c n t := by simp only [runFor, h]

theorem runFor_add (c : Config) (n : Nat) : ∀ (m : Nat) (s : State), runFor c (m + n) s = runFor c n (runFor c m s)
  | 0, s => by rw [Nat.zero_add]; rfl
  | m + 1, s => by
    cases hs : s.status with
    | halted => simp only [runFor_of_halted c hs]
    | running =>
      obtain ⟨t, ht⟩ := exists_cycle_next c hs
      rw [Nat.add_right_comm, runFor_succ_of_next ht, runFor_succ_of_next ht, runFor_add c n m t]

/-- Settles O12: once Halted no step is defined, so a run stays where it is (`runFor_of_halted`). -/
theorem runsAreSingleSteps : Obligations.RunsAreSingleSteps := by
  refine fun c m n s => ⟨runFor_add c n m s, fun hhalt => ?_⟩
  rw [runFor_add, runFor_of_halted c hhalt]

end Sys2Proof.Machine

/-! ### The whole machine: the invariant, faults, and what a step changes -/

namespace Sys2Proof.Machine

theorem CoreFault.cause_ne_none (f : CoreFault) : f.cause ≠ .none := by cases f <;> simp [CoreFault.cause]

/-- Settles O38: the memory is empty, the flags are 0 and STATUS is Halted. -/
theorem resetMeetsTheInvariant : Obligations.ResetMeetsTheInvariant where
  mem_wf := State.reset_mem_wf
  pc_le := by decide
  flags_le := ⟨by decide, by decide, by decide⟩
  cause_halted := fun _ => rfl
  info_zero := fun _ => rfl

/-- A raised fault keeps the invariant: it halts, and its CAUSE is not 0. -/
theorem State.Inv.raise {s : State} (hs : s.Inv) (f : CoreFault) : (s.raise f).Inv where
  mem_wf := hs.mem_wf
  pc_le := hs.pc_le
  flags_le := hs.flags_le
  cause_halted := fun _ => rfl
  info_zero := fun h => absurd h f.cause_ne_none

theorem effect_flags_atMostOne {i : Instr} {s : State} (hs : s.flags.AtMostOne) : (effect i s).flags.AtMostOne := by
  obtain hf | ⟨a, b, rfl⟩ := effect_flags i s
  · rwa [hf]
  · exact compareFlags_atMostOne _ _

/-- An instruction that ends inside the memory leaves a pc of 0 to 256. -/
theorem effect_pc_le {i : Instr} {s : State} (hfit : s.pc.toNat + i.length ≤ 256) : (effect i s).pc.toNat ≤ 256 := by
  obtain ⟨v, hv⟩ | hadv := effect_pc i s
  · rw [hv, zext9_toNat]
    exact v.isLt.le
  · rwa [hadv, s.pc_add_toNat hfit]

/-- The effect of an instruction that ends inside the memory keeps the invariant, from a running machine. -/
theorem State.Inv.effect {s : State} (hs : s.Inv) (hrun : s.status = .running) {i : Instr}
    (hfit : s.pc.toNat + i.length ≤ 256) : (effect i s).Inv where
  mem_wf := effect_mem_wf i s hs.mem_wf
  pc_le := effect_pc_le hfit
  flags_le := effect_flags_atMostOne hs.flags_le
  cause_halted := fun h => by
    have hhalt := hs.cause_halted (effect_cause i s ▸ h)
    rw [hrun] at hhalt
    cases hhalt
  info_zero := fun h => by
    rw [effect_cause] at h
    rw [effect_info, hs.info_zero h]

/-- Settles O39: a step raises a fault or has an instruction's effect, and each keeps the invariant; what was fetched ends inside
the memory (`State.fetch_fits`), which bounds the pc. -/
theorem everyStepKeepsTheInvariant : Obligations.EveryStepKeepsTheInvariant := by
  intro c s t hc hs h
  obtain ⟨f, rfl⟩ | ⟨i, hfetch, _, _, rfl⟩ := cycle_raise_or_effect hc h
  · exact hs.raise f
  · exact hs.effect (cycle_cases h).1 (State.fetch_fits hc hfetch)

theorem Reaches.inv {c : Config} (hc : c.Ok) {s t : State} (hs : s.Inv) (h : Reaches c s t) : t.Inv := by
  induction h with
  | refl => exact hs
  | step _ hstep ih => exact everyStepKeepsTheInvariant c _ _ hc ih hstep

/-- Settles O41: an effect leaves CAUSE, so a step that sets it raised a fault. -/
theorem faultsArePrecise : Obligations.FaultsArePrecise := by
  intro c s t hs h ht
  obtain ⟨_, ⟨f, _, rfl⟩ | ⟨_, f, _, _, rfl⟩ | ⟨i, _, _, rfl⟩⟩ := cycle_cases h
  · rfl
  · rfl
  · rw [effect_cause] at ht
    exact absurd hs ht

/-- What a fault of a step says of the state before it (R111 to R114, R161 to R164, R166). -/
def CoreFault.Says (c : Config) (s : State) (f : CoreFault) : Prop :=
  (f = .unknownInstruction (s.mem.read s.pc.toNat) ∧ c.lookup (s.mem.read s.pc.toNat) = none) ∨
  (f = .addressOutOfRange 256 ∧ 254 ≤ s.pc.toNat) ∨
  (∃ b, f = .registerOutOfRange b ∧ 8 ≤ b.toNat) ∨
  (f = .stackOverflow ∧ s.sp = 0) ∨
  (f = .stackUnderflow ∧ (s.sp = 255 ∨ s.mem.read s.sp.toNat = 255))

theorem State.fetch_error_says {c : Config} {s : State} {f : CoreFault} (hpc : s.pc.toNat ≤ 256)
    (h : s.fetch c = .error f) : f.Says c s := by
  obtain ⟨k, hk, rfl, hge, hlt⟩ | hunknown | hregister := State.fetch_error_cases h
  · have hend : s.pc.toNat + k = 256 := by
      cases k with
      | zero => omega
      | succ j => have := hlt j (Nat.lt_succ_self j); omega
    exact .inr (.inl ⟨by rw [hend], by omega⟩)
  · exact .inl hunknown
  · exact .inr (.inr (.inl hregister))

theorem ownFault_says {c : Config} {i : Instr} {s : State} {f : CoreFault} (hfit : s.pc.toNat + i.length ≤ 256)
    (h : ownFault i s = some f) : f.Says c s := by
  cases i <;> simp only [ownFault, reduceCtorEq] at h
  case push =>
    split at h <;> cases h
    exact .inr (.inr (.inr (.inl ⟨rfl, ‹_›⟩)))
  case ret =>
    split at h <;> cases h
    exact .inr (.inr (.inr (.inr ⟨rfl, .inl ‹_›⟩)))
  case pop =>
    split at h
    · cases h
      exact .inr (.inr (.inr (.inr ⟨rfl, .inl ‹_›⟩)))
    · split at h <;> cases h
      exact .inr (.inr (.inr (.inr ⟨rfl, .inr (And.right ‹_›)⟩)))
  case call r =>
    have hlen : (Instr.call r).length = 2 := rfl
    split at h
    · cases h
      have hend : s.pc.toNat + 2 = 256 := by omega
      exact .inr (.inl ⟨by rw [hend], by omega⟩)
    · split at h <;> cases h
      exact .inr (.inr (.inr (.inl ⟨rfl, ‹_›⟩)))

/-- The two ends of a step from a pc of 0 to 256: a fault that says why, or a state with CAUSE as it was. -/
theorem cycle_says {c : Config} (hc : c.Ok) {s t : State} (hpc : s.pc.toNat ≤ 256) (h : cycle c s = .next t) :
    (∃ f : CoreFault, f.Says c s ∧ t = s.raise f) ∨ t.cause = s.cause := by
  obtain ⟨_, ⟨f, hf, ht⟩ | ⟨i, f, hfetch, hown, ht⟩ | ⟨i, _, _, rfl⟩⟩ := cycle_cases h
  · exact .inl ⟨f, State.fetch_error_says hpc hf, ht⟩
  · exact .inl ⟨f, ownFault_says (State.fetch_fits hc hfetch) hown, ht⟩
  · exact .inr (effect_cause i s)

/-- Settles O42: of the faults a step can raise each has a CAUSE of its own, and says what the statement asks. -/
theorem causesSayWhatHappened : Obligations.CausesSayWhatHappened := by
  intro c s t hc hinv hs h
  obtain ⟨f, hf, rfl⟩ | ht := cycle_says hc hinv.pc_le h
  · have byte_le (b : Byte) : b.toNat ≤ 255 := Nat.le_of_lt_succ b.isLt
    obtain ⟨rfl, hl⟩ | ⟨rfl, hpc⟩ | ⟨b, rfl, hb⟩ | ⟨rfl, hsp⟩ | ⟨rfl, hsp⟩ := hf
    · simp [CoreFault.cause, CoreFault.info, hl, setWidth_nine_toNat, -BitVec.toNat_setWidth]
    · simp [CoreFault.cause, CoreFault.info, hpc]
    · simp [CoreFault.cause, CoreFault.info, hb, byte_le, setWidth_nine_toNat,
        -BitVec.toNat_setWidth]
    · simp [CoreFault.cause, CoreFault.info, hsp]
    · simpa [CoreFault.cause, CoreFault.info] using hsp
  · simp [ht, hs]

/-- Settles O43: neither the fetch stage nor an instruction raises it, and an effect leaves CAUSE. -/
theorem unsupportedOperationIsUnreachable : Obligations.UnsupportedOperationIsUnreachable := by
  intro c s t h ht
  obtain ⟨_, ⟨f, hf, rfl⟩ | ⟨i, f, _, hown, rfl⟩ | ⟨i, _, _, rfl⟩⟩ := cycle_cases h
  · obtain ⟨_, rfl⟩ | ⟨_, rfl⟩ | ⟨_, rfl⟩ := State.fetch_error hf <;> cases ht
  · obtain ⟨_, rfl⟩ | rfl | rfl := ownFault_kind hown <;> cases ht
  · rwa [effect_cause] at ht

/-- Settles O45: a fault changes no register, and an effect only those of `writtenRegs` (`effect_reg`). -/
theorem registersChangeOnlyByTheirInstructions : Obligations.RegistersChangeOnlyByTheirInstructions := by
  intro c s t hc h q
  obtain ⟨f, rfl⟩ | ⟨i, hfetch, hcode, _, rfl⟩ := cycle_raise_or_effect hc h
  · exact .inl rfl
  · by_cases hq : q ∈ writtenRegs i
    · exact .inr ⟨i, State.fetch_wellFormed hfetch, hcode, hq⟩
    · exact .inl (effect_reg i s hq)

/-- Settles O46: a fault leaves the flags, and an effect that changes them is CMP's (`effect_flags`). -/
theorem flagsChangeOnlyByCmp : Obligations.FlagsChangeOnlyByCmp := by
  intro c s t hc h
  obtain ⟨f, rfl⟩ | ⟨i, _, hcode, _, rfl⟩ := cycle_raise_or_effect hc h
  · exact .inl rfl
  · obtain hflags | ⟨a, b, rfl⟩ := effect_flags i s
    · exact .inl hflags
    · exact .inr ⟨⟨a, b, hcode⟩, compareFlags_cases _ _⟩

/-- Settles O48: a fault leaves the memory, and an effect that changes it writes the one cell at `pushAddress` (`effect_mem`). -/
theorem memoryChangesOnlyByPushAndCall : Obligations.MemoryChangesOnlyByPushAndCall := by
  intro c s t hc h x
  obtain ⟨f, rfl⟩ | ⟨i, _, hcode, _, rfl⟩ := cycle_raise_or_effect hc h
  · exact .inl rfl
  · obtain hm | ⟨⟨r, hi⟩, v, hm⟩ := effect_mem i s
    · exact .inl (by rw [hm])
    · by_cases hx : x = s.pushAddress
      · refine .inr ⟨hx, r, ?_⟩
        obtain rfl | rfl := hi
        · exact .inl hcode
        · exact .inr hcode
      · exact .inl (by rw [hm, Memory.read_write_other hx])

/-- The register a CALL jumps through, read after the push, is a byte's address (D17). -/
theorem effect_call_pc_toNat {s : State} {r : RegIndex} (h : s.sp ≠ 0) :
    (effect (.call r) s).pc.toNat = if r = Config.spIndex then s.sp.toNat - 1 else (s.reg r).toNat := by
  have hsp : (s.sp - 1).toNat = s.sp.toNat - 1 := s.pushAddress_eq h
  rw [effect, State.jump_pc, zext9_toNat, State.reg_decremented, apply_ite BitVec.toNat, hsp]

/-- Settles O49: a jump's target is a byte (`zext9_toNat`), and the common advance is exact as the instruction ends inside the
memory. -/
theorem pcAfterEveryStep : Obligations.PcAfterEveryStep := by
  intro c s t hc h
  obtain ⟨f, rfl⟩ | ⟨i, hfetch, hcode, hown, rfl⟩ := cycle_raise_or_effect hc h
  · exact .inl ⟨f, rfl, rfl⟩
  · refine .inr ⟨i, State.fetch_wellFormed hfetch, hcode, ?_⟩
    have hadvance : (s.pc + BitVec.ofNat 9 i.length).toNat = s.pc.toNat + i.length :=
      s.pc_add_toNat (State.fetch_fits hc hfetch)
    cases i with
    | ret => exact zext9_toNat _
    | jmp r => exact zext9_toNat _
    | call r =>
      have hsp : s.sp ≠ 0 := fun hzero => by
        simp only [ownFault, hzero, if_true] at hown
        split at hown <;> cases hown
      exact effect_call_pc_toNat hsp
    | jeq r =>
      rw [effect, State.branch_pc]
      cases s.flags.e
      · exact hadvance
      · exact zext9_toNat _
    | jne r =>
      rw [effect, State.branch_pc]
      cases s.flags.e
      · exact zext9_toNat _
      · exact hadvance
    | _ => exact hadvance

end Sys2Proof.Machine

/-! ### What a step does not read: OUT, FL.L and FL.G -/

namespace Sys2Proof.Machine

/-- The state with another output stream. -/
def State.withOut (s : State) (o : List Byte) : State := { s with out := o }

section
variable (i : Instr) (s : State) (o : List Byte) (l g : Bool)

theorem ownFault_withOut : ownFault i (s.withOut o) = ownFault i s := rfl

theorem effect_withOut : effect i (s.withOut o) = (effect i s).withOut (o ++ printedBy i s) := by
  cases i with
  | prn r => rfl
  | jeq r | jne r => simp only [effect, State.branch_eq, printedBy, List.append_nil]; rfl
  | _ => simp only [printedBy, List.append_nil]; rfl

theorem ownFault_withLessGreater : ownFault i (s.withLessGreater l g) = ownFault i s := rfl

/-- FL.L and FL.G stay as they are, or CMP writes them afresh (R28). -/
theorem effect_withLessGreater : effect i (s.withLessGreater l g) = (effect i s).withLessGreater l g ∨
    ((∃ a b, i = .cmp a b) ∧ effect i (s.withLessGreater l g) = effect i s) := by
  cases i with
  | cmp a b => exact .inr ⟨⟨a, b, rfl⟩, rfl⟩
  | jeq r | jne r => exact .inl (by simp only [effect, State.branch_eq]; rfl)
  | _ => exact .inl rfl

end

/-- `s'` has what decides the step at `s`: STATUS, the fetched instruction, and the faults of instructions. -/
structure State.StepsLike (c : Config) (s s' : State) : Prop where
  status : s'.status = s.status
  fetch : s'.fetch c = s.fetch c
  ownFault : ∀ i, ownFault i s' = ownFault i s

theorem State.stepsLike_withOut (c : Config) (s : State) (o : List Byte) : s.StepsLike c (s.withOut o) :=
  ⟨rfl, rfl, fun i => ownFault_withOut i s o⟩

theorem State.stepsLike_withLessGreater (c : Config) (s : State) (l g : Bool) :
    s.StepsLike c (s.withLessGreater l g) :=
  ⟨rfl, rfl, fun i => ownFault_withLessGreater i s l g⟩

/-- The same fault is raised or the same instruction has its effect at every state that steps like `s`. -/
theorem cycle_of_stepsLike {c : Config} {s t : State} (h : cycle c s = .next t) :
    (∃ f, t = s.raise f ∧ ∀ s', s.StepsLike c s' → cycle c s' = .next (s'.raise f)) ∨
    ∃ i, s.fetch c = .ok i ∧ t = effect i s ∧ ∀ s', s.StepsLike c s' → cycle c s' = .next (effect i s') := by
  obtain ⟨hrun, ⟨f, hf, rfl⟩ | ⟨i, f, hi, hf, rfl⟩ | ⟨i, hi, hnone, rfl⟩⟩ := cycle_cases h
  · exact .inl ⟨f, rfl, fun s' hs' => cycle_of_fetch_error (hs'.status.trans hrun) (hs'.fetch.trans hf)⟩
  · refine .inl ⟨f, rfl, fun s' hs' => ?_⟩
    rw [cycle_of_fetch_ok (hs'.status.trans hrun) (hs'.fetch.trans hi), exec_eq, hs'.ownFault, hf]
  · refine .inr ⟨i, hi, rfl, fun s' hs' => ?_⟩
    rw [cycle_of_fetch_ok (hs'.status.trans hrun) (hs'.fetch.trans hi), exec_eq, hs'.ownFault, hnone]

/-- Settles O47: the fetch and the instructions' own faults do not look at L and G, and of the effects only CMP's does anything to
them but keep them. -/
theorem lessAndGreaterAreNeverRead : Obligations.LessAndGreaterAreNeverRead := by
  refine fun c s l g hc => ⟨fun hhalt => cycle_of_halted hhalt, fun t h => ?_⟩
  have halike : s.StepsLike c (s.withLessGreater l g) := s.stepsLike_withLessGreater c l g
  obtain ⟨f, rfl, hstep⟩ | ⟨i, hfetch, rfl, hstep⟩ := cycle_of_stepsLike h
  · exact .inl (hstep _ halike)
  · obtain heff | ⟨⟨a, b, rfl⟩, heff⟩ := effect_withLessGreater i s l g
    · exact .inl (by rw [hstep _ halike, heff])
    · exact .inr ⟨⟨a, b, State.hasCode_of_fetch hc hfetch⟩, by rw [hstep _ halike, heff]⟩

theorem printedBy_cases (i : Instr) (s : State) :
    printedBy i s = [] ∨ ∃ r, i = .prn r ∧ printedBy i s = [s.reg r] := by
  cases i with
  | prn r => exact .inr ⟨r, rfl, rfl⟩
  | _ => exact .inl rfl

/-- What a step appends to OUT, and that it is the same with any other content of OUT. -/
theorem cycle_appends {c : Config} (hc : c.Ok) {s t : State} (h : cycle c s = .next t) :
    ∃ new : List Byte, t.out = s.out ++ new ∧
      (new = [] ∨ ∃ r : RegIndex, s.HasCode (encode c (.prn r)) ∧ new = [s.reg r]) ∧
      ∀ o, cycle c (s.withOut o) = .next (t.withOut (o ++ new)) := by
  obtain ⟨f, rfl, hstep⟩ | ⟨i, hfetch, rfl, hstep⟩ := cycle_of_stepsLike h
  · refine ⟨[], by rw [State.raise_out, List.append_nil], .inl rfl, fun o => ?_⟩
    rw [hstep _ (s.stepsLike_withOut c o), List.append_nil]
    rfl
  · refine ⟨printedBy i s, effect_out i s, ?_, fun o => ?_⟩
    · obtain hnil | ⟨r, rfl, hr⟩ := printedBy_cases i s
      · exact .inl hnil
      · exact .inr ⟨r, State.hasCode_of_fetch hc hfetch, hr⟩
    · rw [hstep _ (s.stepsLike_withOut c o), effect_withOut]

/-- A step at the bytes of PRN appends its register's value. -/
theorem cycle_out_of_hasCode_prn {c : Config} (hc : c.Ok) {s t : State} (h : cycle c s = .next t) {r : RegIndex}
    (hcode : s.HasCode (encode c (.prn r))) : t.out = s.out ++ [s.reg r] := by
  rw [cycle_of_hasCode hc (cycle_cases h).1 rfl hcode] at h
  cases h
  rfl

/-- The host renders what is appended behind what it has rendered (R41). -/
theorem State.printed_of_out {s t : State} {new : List Byte} (h : t.out = s.out ++ new) :
    t.printed = s.printed ++ new.flatMap outputLine := by
  rw [State.printed, State.printed, h, List.flatMap_append]

/-- Settles O44: `cycle_appends` says what a step appends; at the bytes of PRN that is its register's value. -/
theorem outputOnlyGrowsByPrnAndIsNeverRead : Obligations.OutputOnlyGrowsByPrnAndIsNeverRead := by
  refine ⟨rfl, fun c s t hc h => ?_⟩
  obtain ⟨new, hout, hnew, hread⟩ := cycle_appends hc h
  refine ⟨new, hout, hnew, fun r hcode => ?_, State.printed_of_out hout, hread⟩
  exact List.append_cancel_left (hout.symm.trans (cycle_out_of_hasCode_prn hc h hcode))

end Sys2Proof.Machine

/-! ### The instructions: their results, what they leave unchanged, and their own faults -/

namespace Sys2Proof.Machine

theorem exec_of_ownFault_none {i : Instr} {s : State} (h : ownFault i s = none) : exec i s = .next (effect i s) := by
  rw [exec_eq, h]

theorem exec_of_ownFault {i : Instr} {s : State} {f : CoreFault} (h : ownFault i s = some f) :
    exec i s = .next (s.raise f) := by
  rw [exec_eq, h]

/-- An effect leaves STATUS, CAUSE and INFO, but for HLT's. -/
theorem sameControl_effect {i : Instr} (s : State) (h : i ≠ .hlt) : SameControl s (effect i s) :=
  ⟨by rw [effect_status, if_neg h], effect_cause i s, effect_info i s⟩

theorem sameRegsBut_effect (i : Instr) (s : State) : SameRegsBut (writtenRegs i) s (effect i s) := fun _ hq =>
  effect_reg i s hq

/-- An ALU operation leaves its narrowed exact result in its first operand (R130, R131). -/
theorem aluWrite_advance_reg (s : State) (op : AluOp) (a b : RegIndex) :
    ((s.aluWrite op a b).advance 2).reg a = trunc8 (op.exact (s.reg a).toNat (s.reg b).toNat) :=
  s.reg_setReg_same a _

/-- Settles O14: the exact sum is narrowed modulo 256 into the first operand; the frame is that of `effect`. -/
theorem addWritesSumModulo256 : Obligations.AddWritesSumModulo256 := by
  intro s a b
  refine ⟨effect (.add a b) s, rfl, ?_, sameRegsBut_effect (.add a b) s, s.pc_add_toNat, rfl,
    sameControl_effect s (by simp), rfl, fun _ => rfl⟩
  rw [effect, aluWrite_advance_reg]
  exact trunc8_toNat ((s.reg a).toNat + (s.reg b).toNat)

/-- Settles O15: the exact product is narrowed modulo 256 into the first operand; the frame is that of `effect`. -/
theorem mulWritesProductModulo256 : Obligations.MulWritesProductModulo256 := by
  intro s a b
  refine ⟨effect (.mul a b) s, rfl, ?_, sameRegsBut_effect (.mul a b) s, s.pc_add_toNat, rfl,
    sameControl_effect s (by simp), rfl, fun _ => rfl⟩
  rw [effect, aluWrite_advance_reg]
  exact trunc8_toNat ((s.reg a).toNat * (s.reg b).toNat)

/-- A negative difference of bytes wraps to the byte 256 above it (R131). -/
theorem trunc8_sub_toNat (x y : Byte) :
    (trunc8 ((x.toNat : Int) - y.toNat)).toNat = (x.toNat + 256 - y.toNat) % 256 := by
  have := y.isLt
  simp only [trunc8, BitVec.toNat_ofInt]
  omega

/-- Settles O16: the difference is `trunc8_sub_toNat`; the byte A1 selects SUB with HAS_SUB and no row without it. -/
theorem subWritesDifferenceModulo256 : Obligations.SubWritesDifferenceModulo256 := by
  refine ⟨fun s a b => ?_, fun s a b hs hcode => ⟨?_, ?_⟩⟩
  · refine ⟨effect (.sub a b) s, rfl, ?_, sameRegsBut_effect (.sub a b) s, s.pc_add_toNat, rfl,
      sameControl_effect s (by simp), rfl, fun _ => rfl⟩
    rw [effect, aluWrite_advance_reg]
    exact trunc8_sub_toNat _ _
  · exact cycle_of_hasCode Config.withSub_ok (i := .sub a b) hs rfl hcode
  · obtain ⟨hpc, hread⟩ := hcode 0 0xA1 rfl
    rw [Nat.add_zero] at hpc hread
    have hunknown : Config.hardware.lookup 0xA1 = none := by decide
    have hfetch := State.fetch_of_unknown hpc (hread ▸ hunknown)
    rw [hread] at hfetch
    exact cycle_of_fetch_error hs hfetch

/-- Settles O17: the three orders of the operands are the three outcomes of `compareFlags`. -/
theorem cmpSetsFlagsByUnsignedOrder : Obligations.CmpSetsFlagsByUnsignedOrder := fun s a b =>
  ⟨effect (.cmp a b) s, rfl, compareFlags_of_eq, compareFlags_of_lt, compareFlags_of_gt, sameRegsBut_effect (.cmp a b) s,
    s.pc_add_toNat, sameControl_effect s (by simp), rfl, fun _ => rfl⟩

/-- Settles O18: the effect of PRN, and the two faults of the fetch stage at its opcode. -/
theorem prnAppendsItsRegister : Obligations.PrnAppendsItsRegister := by
  refine ⟨fun s r => ?_, fun s b hs hcode hb => ?_, fun s hs hpc hread => ?_⟩
  · exact ⟨effect (.prn r) s, rfl, rfl, sameRegsBut_effect (.prn r) s, s.pc_add_toNat, rfl, sameControl_effect s (by simp),
      fun _ => rfl⟩
  · have hregister : step s = .next (s.raise (.registerOutOfRange b)) :=
      cycle_of_decodeOperands_error Config.hardware_ok hs (o := .prn) (y := 0) rfl hcode
        (decodeOperands_of_first_ge 0 le_rfl hb)
    exact ⟨_, hregister, rfl, rfl⟩
  · have hprn : Config.hardware.lookup (s.mem.read s.pc.toNat) = some .prn := by rw [hpc, hread]; decide
    have haddress : s.fetch Config.hardware = .error (.addressOutOfRange 256) :=
      State.fetch_of_missing_operand Config.hardware_ok (by omega) hprn (by rw [hpc]; decide)
    exact ⟨_, cycle_of_fetch_error hs haddress, rfl, rfl⟩

/-- Settles O23: the target is a byte's address (`zext9_toNat`). -/
theorem jmpGoesToTheRegister : Obligations.JmpGoesToTheRegister := fun s r =>
  ⟨effect (.jmp r) s, rfl, zext9_toNat _, sameRegsBut_effect (.jmp r) s, rfl, sameControl_effect s (by simp), rfl, fun _ => rfl⟩

/-- The pc of a jump that is taken or not. -/
theorem State.branch_pc_toNat (s : State) (taken : Bool) (r : RegIndex) :
    (taken = true → (s.branch taken r).pc.toNat = (s.reg r).toNat) ∧
    (taken = false → s.pc.toNat + 2 ≤ 256 → (s.branch taken r).pc.toNat = s.pc.toNat + 2) := by
  constructor
  · rintro rfl
    exact zext9_toNat _
  · rintro rfl hpc
    exact s.pc_add_toNat hpc

/-- Settles O24: a jump taken at E = 1 (`State.branch_pc_toNat`). -/
theorem jeqIsTakenWhenEqual : Obligations.JeqIsTakenWhenEqual := fun s r =>
  have ⟨htaken, hnot⟩ := s.branch_pc_toNat s.flags.e r
  ⟨effect (.jeq r) s, rfl, htaken, hnot, sameRegsBut_effect (.jeq r) s, s.branch_flags _ r, sameControl_effect s (by simp),
    s.branch_out _ r, fun _ => by rw [effect, State.branch_mem]⟩

/-- Settles O25: a jump taken at E = 0 (`State.branch_pc_toNat`). -/
theorem jneIsTakenWhenNotEqual : Obligations.JneIsTakenWhenNotEqual := fun s r =>
  have ⟨htaken, hnot⟩ := s.branch_pc_toNat (!s.flags.e) r
  ⟨effect (.jne r) s, rfl, fun he => htaken (by rw [he]; rfl), fun he => hnot (by rw [he]; rfl),
    sameRegsBut_effect (.jne r) s, s.branch_flags _ r, sameControl_effect s (by simp), s.branch_out _ r,
    fun _ => by rw [effect, State.branch_mem]⟩

/-- Settles O26: the effect of HLT is STATUS and the pc's advance, exact up to 256. -/
theorem hltHaltsAndAdvances : Obligations.HltHaltsAndAdvances := fun s =>
  ⟨effect .hlt s, rfl, rfl, rfl, rfl, s.pc_add_toNat, sameRegsBut_effect .hlt s, rfl, rfl, fun _ => rfl⟩

/-- Settles O32: JNE is taken where JEQ is not. -/
theorem exactlyOneOfJeqAndJneIsTaken : Obligations.ExactlyOneOfJeqAndJneIsTaken := by
  intro s r hpc
  refine ⟨_, _, rfl, rfl, ?_⟩
  cases he : s.flags.e
  · exact .inr ⟨(s.branch_pc_toNat false r).2 rfl hpc, (s.branch_pc_toNat true r).1 rfl⟩
  · exact .inl ⟨(s.branch_pc_toNat true r).1 rfl, (s.branch_pc_toNat false r).2 rfl hpc⟩

/-! ### The stack: results, faults, and the laws of pairs -/

theorem ownFault_push_of_room {s : State} (r : RegIndex) (h : s.sp ≠ 0) : ownFault (.push r) s = none := if_neg h

theorem ownFault_call_of_room {s : State} (r : RegIndex) (hpc : s.pc.toNat + 2 ≤ 255) (h : s.sp ≠ 0) :
    ownFault (.call r) s = none := by
  rw [ownFault, if_neg (by omega), if_neg h]

theorem ownFault_ret_of_below {s : State} (h : s.sp ≠ 255) : ownFault .ret s = none := if_neg h

theorem ownFault_pop_of_below {s : State} {r : RegIndex} (h : s.sp ≠ 255)
    (hr : ¬(r = Config.spIndex ∧ s.mem.read s.popAddress = 255)) : ownFault (.pop r) s = none := by
  rw [ownFault, if_neg h, if_neg hr]

section
variable (s : State) (r : RegIndex)

/-- PUSH and CALL leave SP decremented (R160). -/
theorem effect_push_sp : (effect (.push r) s).sp = s.sp - 1 := s.setSp_sp _

theorem effect_call_sp : (effect (.call r) s).sp = s.sp - 1 := s.setSp_sp _

theorem effect_push_mem : (effect (.push r) s).mem =
    s.mem.write s.pushAddress (if r = Config.spIndex then s.sp - 1 else s.reg r) := by
  rw [← s.reg_decremented]
  rfl

theorem effect_call_mem :
    (effect (.call r) s).mem = s.mem.write s.pushAddress (BitVec.ofNat 8 (s.pc.toNat + 2)) := rfl

/-- Of two registers that POP writes, SP is written last (R166). -/
theorem effect_pop_reg (q : RegIndex) : (effect (.pop r) s).reg q =
    if q = Config.spIndex then (if r = Config.spIndex then s.mem.read s.popAddress else s.sp) + 1
    else if q = r then s.mem.read s.popAddress else s.reg q := by
  rw [effect, State.advance_reg, State.reg_closeSlot, State.sp, State.reg_setReg, State.reg_setReg]
  simp only [eq_comm (a := Config.spIndex)]
  rfl

theorem effect_ret_sp : (effect .ret s).sp = s.sp + 1 := s.setSp_sp _

end

/-- A byte other than 255 is incremented without wrapping. -/
theorem byte_add_one_toNat {v : Byte} (h : v ≠ 255) : (v + 1).toNat = v.toNat + 1 := by bv_omega

/-- A byte other than 0 is decremented without wrapping. -/
theorem byte_sub_one_toNat {v : Byte} (h : v ≠ 0) : (v - 1).toNat = v.toNat - 1 := by bv_omega

/-- A return address that fits in a byte is kept whole (R164). -/
theorem returnByte_toNat {n : Nat} (h : n ≤ 255) : (BitVec.ofNat 8 n).toNat = n := by
  rw [BitVec.toNat_ofNat]
  omega

/-- Settles O19: the push stores at `pushAddress`, so that cell reads as written and every other as before. -/
theorem pushStoresBelowTheStackTop : Obligations.PushStoresBelowTheStackTop := by
  intro s r hsp
  refine ⟨effect (.push r) s, exec_of_ownFault_none (ownFault_push_of_room r hsp), ?_, sameRegsBut_effect (.push r) s,
    s.pushAddress_eq hsp, fun hwf => ?_, fun x hx => ?_, s.pc_add_toNat, rfl, sameControl_effect s (by simp), rfl⟩
  · rw [effect_push_sp, byte_sub_one_toNat hsp]
  · rw [effect_push_mem, Memory.read_write_same hwf]
  · rw [effect_push_mem, Memory.read_write_other hx]

/-- Settles O20: `effect_pop_reg` gives every register, SP last, and no increment wraps. -/
theorem popLoadsTheStackTop : Obligations.PopLoadsTheStackTop := by
  intro s r hsp hload
  refine ⟨effect (.pop r) s, exec_of_ownFault_none (ownFault_pop_of_below hsp hload), rfl, fun hr => ⟨?_, ?_⟩,
    fun hr => ?_, sameRegsBut_effect (.pop r) s, s.pc_add_toNat, rfl, sameControl_effect s (by simp), rfl, fun _ => rfl⟩
  · rw [effect_pop_reg, if_neg hr, if_pos rfl]
  · rw [State.sp, effect_pop_reg, if_pos rfl, if_neg hr, byte_add_one_toNat hsp]
  · have hne : s.mem.read s.popAddress ≠ 255 := fun he => hload ⟨hr, he⟩
    rw [State.sp, effect_pop_reg, if_pos rfl, if_pos hr, byte_add_one_toNat hne]

/-- Settles O21: the return address is a byte, so the cell it is pushed to holds it whole. -/
theorem callPushesReturnAddressAndJumps : Obligations.CallPushesReturnAddressAndJumps := by
  intro s r hpc hsp
  refine ⟨effect (.call r) s, exec_of_ownFault_none (ownFault_call_of_room r hpc hsp), ?_,
    sameRegsBut_effect (.call r) s, fun hwf => ?_, fun x hx => ?_, effect_call_pc_toNat hsp, rfl,
    sameControl_effect s (by simp), rfl⟩
  · rw [effect_call_sp, byte_sub_one_toNat hsp]
  · rw [effect_call_mem, Memory.read_write_same hwf, returnByte_toNat hpc]
  · rw [effect_call_mem, Memory.read_write_other hx]

/-- Settles O22: the target is the byte at SP, and the increment of SP does not wrap. -/
theorem retJumpsToTheStackTop : Obligations.RetJumpsToTheStackTop := by
  intro s hsp
  refine ⟨effect .ret s, exec_of_ownFault_none (ownFault_ret_of_below hsp), zext9_toNat _, ?_,
    sameRegsBut_effect .ret s, rfl, sameControl_effect s (by simp), rfl, fun _ => rfl⟩
  rw [effect_ret_sp, byte_add_one_toNat hsp]

/-- The own fault of an instruction, with everything the statements say of it. -/
theorem exists_ownFault {i : Instr} {s : State} {f : CoreFault} (h : ownFault i s = some f) :
    ∃ t, exec i s = .next t ∧ FaultOnly s t ∧ t.cause = f.cause ∧ t.info = f.info :=
  ⟨_, exec_of_ownFault h, faultOnly_raise s f, rfl, rfl⟩

/-- Settles O27: `ownFault` answers StackOverflow, for CALL behind the check of the return address. -/
theorem pushAndCallOverflowAtZero : Obligations.PushAndCallOverflowAtZero := by
  refine fun s r hsp => ⟨exists_ownFault (i := .push r) (if_pos hsp),
    fun hpc => exists_ownFault (i := .call r) (f := .stackOverflow) ?_⟩
  rw [ownFault, if_neg (by omega), if_pos hsp]

/-- Settles O28: `ownFault` answers StackUnderflow at SP = 255 and where POP R7 would load 255. -/
theorem popAndRetUnderflowAtTheTop : Obligations.PopAndRetUnderflowAtTheTop := by
  refine fun s => ⟨fun hsp => exists_ownFault (i := .ret) (if_pos hsp),
    fun r hr => exists_ownFault (i := .pop r) (f := .stackUnderflow) ?_⟩
  rw [ownFault, State.popAddress]
  obtain hsp | hload := hr
  · rw [if_pos hsp]
  · rw [if_pos hload, ite_self]

/-- Settles O29: the return address is checked before the stack. -/
theorem callNeedsAByteReturnAddress : Obligations.CallNeedsAByteReturnAddress := by
  intro s r hpc
  have hown : ownFault (.call r) s = some (.addressOutOfRange 256) := by
    rw [ownFault, if_pos (by omega), hpc]
  exact ⟨_, exec_of_ownFault hown, faultOnly_raise s _, rfl, rfl⟩

/-- Settles O30: the POP reads the cell the PUSH wrote, which for register 7 holds the decremented SP. -/
theorem pushThenPopRestores : Obligations.PushThenPopRestores := by
  intro s r hwf hsp
  have hbelow : s.sp - 1 ≠ 255 := by bv_omega
  have hread : (effect (.push r) s).mem.read (effect (.push r) s).popAddress =
      if r = Config.spIndex then s.sp - 1 else s.reg r := by
    rw [State.popAddress, effect_push_sp, effect_push_mem]
    exact Memory.read_write_same hwf
  have hpop : ownFault (.pop r) (effect (.push r) s) = none := by
    refine ownFault_pop_of_below (by rwa [effect_push_sp]) fun ⟨hr, h255⟩ => ?_
    rw [hread, if_pos hr] at h255
    exact hbelow h255
  refine ⟨_, _, exec_of_ownFault_none (ownFault_push_of_room r hsp), exec_of_ownFault_none hpop, fun q => ?_⟩
  rw [effect_pop_reg, hread, effect_push_sp]
  by_cases hq : q = Config.spIndex
  · subst hq
    rw [if_pos rfl]
    split <;> exact BitVec.sub_add_cancel _ _
  · rw [if_neg hq]
    by_cases hqr : q = r
    · subst hqr
      rw [if_pos rfl, if_neg hq]
    · rw [if_neg hqr]
      exact effect_reg (.push r) s (by simpa [writtenRegs] using hq)

/-- Settles O31: the RET reads the byte the CALL pushed, and increments what the CALL decremented. -/
theorem retReturnsBehindItsCall : Obligations.RetReturnsBehindItsCall := by
  intro s r hwf hpc hsp
  refine ⟨_, exec_of_ownFault_none (ownFault_call_of_room r hpc hsp), fun v hvsp hvread => ?_⟩
  rw [effect_call_sp] at hvsp
  have hread : v.mem.read v.popAddress = BitVec.ofNat 8 (s.pc.toNat + 2) := by
    rw [State.popAddress, hvread, effect_call_sp, effect_call_mem]
    exact Memory.read_write_same hwf
  have hret : ownFault .ret v = none := ownFault_ret_of_below (by rw [hvsp]; bv_omega)
  refine ⟨_, exec_of_ownFault_none hret, ?_, ?_⟩
  · rw [effect, hread]
    exact (zext9_toNat _).trans (returnByte_toNat hpc)
  · rw [effect_ret_sp, hvsp]
    exact BitVec.sub_add_cancel _ _

/-- The opcode the step decodes is the byte that memory holds at the pc when it begins (R61). -/
theorem runsOpcode_of_read {c : Config} (hc : c.Ok) {t : State} {v : Byte} (hs : t.status = .running)
    (hpc : t.pc.toNat < 256) (hv : t.mem.read t.pc.toNat = v) : RunsOpcode c t v := by
  subst hv
  refine ⟨fun hl => cycle_of_fetch_error hs (State.fetch_of_unknown hpc hl), fun o hl => ?_⟩
  cases hf : t.fetch c with
  | ok i =>
    have hop : i.op = o := Option.some_inj.mp ((State.lookup_of_fetch hf).symm.trans hl)
    exact .inl ⟨i, hop, State.hasCode_of_fetch hc hf, cycle_of_fetch_ok hs hf⟩
  | error f =>
    refine .inr ⟨fun i hi hcode => ?_, f, cycle_of_fetch_error hs hf, fun b hb => ?_⟩
    · have hwf : i.wellFormed c = true := by rw [Instr.wellFormed, hi, (Config.lookup_some hl).1]
      rw [State.fetch_of_hasCode hc hwf hcode] at hf
      cases hf
    · subst hb
      obtain ⟨k, _, hk, _⟩ | ⟨_, hnone⟩ | ⟨b, hb, _⟩ := State.fetch_error_cases hf
      · cases hk
      · rw [hl] at hnone
        cases hnone
      · cases hb

/-- A running machine with the opcode of HLT at the pc executes HLT, which has no operands. -/
theorem cycle_of_read_hlt {c : Config} (hc : c.Ok) {t : State} (hs : t.status = .running) (hpc : t.pc.toNat < 256)
    (hv : t.mem.read t.pc.toNat = c.opcodeMap .hlt) : cycle c t = exec .hlt t := by
  have hl : c.lookup (t.mem.read t.pc.toNat) = some .hlt := by rw [hv]; exact Config.lookup_opcode hc rfl
  exact cycle_of_hasCode hc hs rfl (State.hasCode_take (n := 0) hl hpc)

/-- Settles O33: the pc after the PUSH, and after the CALL, is the address it stored to, and the next step decodes what memory
holds there (`runsOpcode_of_read`). -/
theorem pushedByteIsFetchedByTheNextStep : Obligations.PushedByteIsFetchedByTheNextStep := by
  intro c s r v hc hs hwf
  constructor
  · intro hcode hnext hv
    have hroom : s.sp ≠ 0 := fun h => by rw [h] at hnext; simp at hnext
    have hlt : s.sp.toNat < 256 := s.sp.isLt
    have hrun : (effect (.push r) s).status = .running := hs
    have hpc : (effect (.push r) s).pc.toNat = s.pc.toNat + 2 := s.pc_add_toNat (by omega)
    have haddr : s.pc.toNat + 2 = s.pushAddress := by rw [s.pushAddress_eq hroom]; omega
    have hread : (effect (.push r) s).mem.read (effect (.push r) s).pc.toNat = v := by
      rw [hpc, haddr, effect_push_mem, hv]
      exact Memory.read_write_same hwf
    refine ⟨effect (.push r) s, ?_, hpc, hread, runsOpcode_of_read hc hrun (by omega) hread, fun hhlt => ?_⟩
    · rw [cycle_of_hasCode hc hs rfl hcode, exec_of_ownFault_none (ownFault_push_of_room r hroom)]
    · exact cycle_of_read_hlt hc hrun (by omega) (hread.trans hhlt)
  · intro hcode hret hroom htarget hv
    have hlt : s.sp.toNat < 256 := s.sp.isLt
    have hrun : (effect (.call r) s).status = .running := hs
    have hpc : (effect (.call r) s).pc.toNat = s.sp.toNat - 1 := by
      rw [effect, State.jump_pc, zext9_toNat, State.reg_decremented, htarget]
    have hbyte : BitVec.ofNat 8 (s.pc.toNat + 2) = v := by rw [← hv, BitVec.ofNat_toNat, BitVec.setWidth_eq]
    have hread : (effect (.call r) s).mem.read (effect (.call r) s).pc.toNat = v := by
      rw [hpc, ← s.pushAddress_eq hroom, effect_call_mem, hbyte]
      exact Memory.read_write_same hwf
    refine ⟨effect (.call r) s, ?_, hpc, hread, runsOpcode_of_read hc hrun (by omega) hread⟩
    rw [cycle_of_hasCode hc hs rfl hcode, exec_of_ownFault_none (ownFault_call_of_room r hret hroom)]

end Sys2Proof.Machine

/-! ### Reset, the host and the launch of an image -/

namespace Sys2Proof.Machine

/-- Settles O1: each word is the encoding of its instruction, which decodes to it (`encodedInstructionDecodesToItself`); A1 is the
opcode of no row without SUB. -/
theorem spelledOutWordsDecode : Obligations.SpelledOutWordsDecode :=
  have hardware (i : Instr) (rest : List Byte) (h : i.wellFormed Config.hardware = true) :=
    encodedInstructionDecodesToItself Config.hardware Config.hardware_ok i rest h
  ⟨hardware .hlt [0x45] rfl, hardware .ret [] rfl, hardware (.push 5) [] rfl, hardware (.pop 6) [] rfl,
    hardware (.prn 7) [] rfl, hardware (.call 3) [] rfl, hardware (.jmp 2) [0x11] rfl, hardware (.jeq 1) [] rfl,
    hardware (.jne 4) [] rfl, hardware (.ldi 3 255) [] rfl, hardware (.add 7 2) [] rfl, hardware (.mul 4 5) [] rfl,
    hardware (.cmp 0 1) [] rfl, by decide,
    encodedInstructionDecodesToItself Config.withSub Config.withSub_ok (.sub 0 1) [] rfl⟩

/-- Settles O34: the register values are the eight cells of `State.reset`, and an unlisted cell reads 0. -/
theorem resetLeavesTheStatedValues : Obligations.ResetLeavesTheStatedValues :=
  ⟨by decide, rfl, rfl, rfl, rfl, rfl, Memory.read_nil, rfl⟩

theorem State.load_of_le (s : State) {img : List Byte} (h : img.length ≤ 256) :
    s.load img = some { s with mem := s.mem.writeFrom 0 img } := if_pos h

theorem State.load_of_gt (s : State) {img : List Byte} (h : 256 < img.length) : s.load img = none :=
  if_neg (Nat.not_le_of_lt h)

/-- The launch state of an image that fits (R242). -/
def launched (img : List Byte) : State :=
  { State.reset with mem := Memory.writeFrom [] 0 img, status := .running }

theorem launch_of_le {img : List Byte} (h : img.length ≤ 256) : launch img = some (launched img) := by
  rw [launch, State.load_of_le _ h]
  rfl

/-- An image is launched exactly when it fits, and then to one state (R244). -/
theorem launch_eq_some {img : List Byte} {s : State} : launch img = some s ↔ img.length ≤ 256 ∧ s = launched img := by
  by_cases h : img.length ≤ 256
  · rw [launch_of_le h, Option.some_inj, eq_comm]
    exact (and_iff_right h).symm
  · rw [launch, State.load_of_gt _ (by omega)]
    simp [h]

/-- Byte `k` of a launched image is at address `k` (R243). -/
theorem launched_read {img : List Byte} (h : img.length ≤ 256) {k : Nat} {b : Byte} (hk : img[k]? = some b) :
    (launched img).mem.read k = b := by
  have hread := Memory.read_writeFrom_inside (m := []) (a := 0) rfl (by rwa [Nat.zero_add]) hk
  rwa [Nat.zero_add] at hread

/-- Settles O35: the image is written from address 0 into the empty memory, so its bytes read as written and the rest as 0. -/
theorem launchPlacesTheImage : Obligations.LaunchPlacesTheImage := by
  refine fun img => ⟨⟨fun h => ⟨_, launch_of_le h⟩, fun ⟨s, hs⟩ => (launch_eq_some.mp hs).1⟩, fun s hs => ?_⟩
  obtain ⟨h, rfl⟩ := launch_eq_some.mp hs
  refine ⟨fun k b hk => launched_read h hk, fun k hk => ?_, rfl, rfl, fun _ _ => rfl, rfl, rfl, rfl, rfl⟩
  exact Memory.read_writeFrom_outside (.inr (by rwa [Nat.zero_add]))

/-- A launch state meets the invariant: it is the reset state but for a canonical memory and STATUS. -/
theorem launched_inv {img : List Byte} (h : img.length ≤ 256) : (launched img).Inv where
  mem_wf := Memory.wf_writeFrom (by rwa [Nat.zero_add]) rfl
  pc_le := resetMeetsTheInvariant.pc_le
  flags_le := resetMeetsTheInvariant.flags_le
  cause_halted := fun hcause => absurd rfl hcause
  info_zero := fun _ => rfl

/-- Settles O40: the invariant holds at the launch, and every step keeps it. -/
theorem everyReachedStateMeetsTheInvariant : Obligations.EveryReachedStateMeetsTheInvariant := by
  intro c img s t hc hs hreach
  obtain ⟨h, rfl⟩ := launch_eq_some.mp hs
  exact hreach.inv hc (launched_inv h)

section
variable (x : Session) (img : List Byte)

theorem Session.act_reset_of_halted (h : x.core.status = .halted) : x.act .reset = some Session.fresh := if_pos h

theorem Session.act_reset_of_running (h : x.core.status = .running) : x.act .reset = none :=
  if_neg (by rw [h]; decide)

theorem Session.act_load_of_fresh (h : x.phase = .fresh) :
    x.act (.load img) = (x.core.load img).map fun s => { phase := .loaded, core := s } := if_pos h

theorem Session.act_load_of_not_fresh (h : x.phase ≠ .fresh) : x.act (.load img) = none := if_neg h

theorem Session.act_run_of_loaded (h : x.phase = .loaded) :
    x.act .run = some { phase := .started, core := x.core.start } := if_pos h

theorem Session.act_run_of_not_loaded (h : x.phase ≠ .loaded) : x.act .run = none := if_neg h

end

/-- Every move that has a result, with the result (R38, R39, R246). -/
theorem Session.act_cases {x y : Session} {m : HostAction} (h : x.act m = some y) :
    (m = .reset ∧ x.core.status = .halted ∧ y = Session.fresh) ∨
    (∃ img, m = .load img ∧ x.phase = .fresh ∧ img.length ≤ 256 ∧
      y = { phase := .loaded, core := { x.core with mem := x.core.mem.writeFrom 0 img } }) ∨
    (m = .run ∧ x.phase = .loaded ∧ y = { phase := .started, core := x.core.start }) := by
  cases m with
  | reset =>
    cases hs : x.core.status with
    | halted => rw [x.act_reset_of_halted hs] at h; cases h; exact .inl ⟨rfl, rfl, rfl⟩
    | running => rw [x.act_reset_of_running hs] at h; cases h
  | load img =>
    by_cases hp : x.phase = .fresh
    · rw [x.act_load_of_fresh img hp] at h
      by_cases hl : img.length ≤ 256
      · rw [x.core.load_of_le hl] at h; cases h; exact .inr (.inl ⟨img, rfl, hp, hl, rfl⟩)
      · rw [x.core.load_of_gt (by omega)] at h; cases h
    · rw [x.act_load_of_not_fresh img hp] at h; cases h
  | run =>
    by_cases hp : x.phase = .loaded
    · rw [x.act_run_of_loaded hp] at h; cases h; exact .inr (.inr ⟨rfl, hp, rfl⟩)
    · rw [x.act_run_of_not_loaded hp] at h; cases h

/-- Settles O37: the moves that have a result are those of `Session.act_cases`; before `run` the core is halted, so that a
running core is in the last phase. -/
theorem hostMovesExactlyWhenItMay : Obligations.HostMovesExactlyWhenItMay := by
  constructor
  · intro x hbefore
    refine ⟨fun hrun m => ?_, x.act_reset_of_halted, fun hp => ⟨?_, fun img => ⟨fun hl => ?_, fun hl => ?_⟩⟩,
      fun hp => ⟨fun img => ?_, x.act_run_of_loaded hp⟩, fun hp hhalt m y hy => ?_, fun m y hy hp => ?_⟩
    · have hstarted : x.phase = .started := by
        by_contra hne
        have hhalt := hbefore hne
        rw [hrun] at hhalt
        cases hhalt
      cases m with
      | reset => exact x.act_reset_of_running hrun
      | load img => exact x.act_load_of_not_fresh img (by simp [hstarted])
      | run => exact x.act_run_of_not_loaded (by simp [hstarted])
    · exact x.act_run_of_not_loaded (by simp [hp])
    · exact ⟨_, x.core.load_of_le hl, by rw [x.act_load_of_fresh img hp, x.core.load_of_le hl]; rfl⟩
    · rw [x.act_load_of_fresh img hp, x.core.load_of_gt hl]
      rfl
    · exact x.act_load_of_not_fresh img (by simp [hp])
    · obtain ⟨hm, _, rfl⟩ | ⟨_, _, hfresh, _, _⟩ | ⟨_, hloaded, _⟩ := Session.act_cases hy
      · exact ⟨hm, rfl⟩
      · rw [hp] at hfresh; cases hfresh
      · rw [hp] at hloaded; cases hloaded
    · obtain ⟨_, _, rfl⟩ | ⟨_, _, hfresh, _, rfl⟩ | ⟨_, _, rfl⟩ := Session.act_cases hy
      · rfl
      · exact hbefore (by simp [hfresh])
      · exact absurd rfl hp
  · intro img s hs
    obtain ⟨h, rfl⟩ := launch_eq_some.mp hs
    refine ⟨⟨.loaded, { State.reset with mem := Memory.writeFrom [] 0 img }⟩, ?_, Session.act_run_of_loaded _ rfl⟩
    rw [Session.act_load_of_fresh _ _ rfl, State.load_of_le _ h]
    rfl

end Sys2Proof.Machine

/-! ### The loader's text format -/

namespace Sys2Proof.Machine

theorem binaryValue_bitChar_cons (n : Nat) (b : Bool) (cs : List Char) :
    binaryValue n (bitChar b :: cs) = binaryValue (2 * n + b.toNat) cs := by
  cases b <;> rfl

/-- Folding bit `k` of a byte onto the bits above it gives the bits from `k` on. -/
theorem binaryValue_bit (b : Byte) (k : Nat) (cs : List Char) :
    binaryValue (b.toNat / 2 ^ (k + 1)) (bitChar (b.getLsbD k) :: cs) = binaryValue (b.toNat / 2 ^ k) cs := by
  rw [binaryValue_bitChar_cons, BitVec.getLsbD, Nat.toNat_testBit, pow_succ, ← Nat.div_div_eq_div_mul, Nat.div_add_mod]

theorem binaryValue_literal (b : Byte) : binaryValue 0 (literal b) = some b.toNat := by
  have hnone : 0 = b.toNat / 2 ^ (7 + 1) := (Nat.div_eq_of_lt b.isLt).symm
  rw [hnone, literal]
  simp only [binaryValue_bit b 7, binaryValue_bit b 6, binaryValue_bit b 5, binaryValue_bit b 4, binaryValue_bit b 3,
    binaryValue_bit b 2, binaryValue_bit b 1, binaryValue_bit b 0, pow_zero, Nat.div_one]
  rfl

/-- A byte's literal is read as the byte (R9). -/
theorem parseLiteral_literal (b : Byte) : parseLiteral (literal b) = some b := by
  have hlen : (literal b).length = 8 := rfl
  rw [parseLiteral, if_pos hlen, binaryValue_literal, Option.map_some, BitVec.ofNat_toNat, BitVec.setWidth_eq]

theorem bitChar_not_blank (b : Bool) : isBlank (bitChar b) = false := by cases b <;> decide

/-- The characters of a literal are neither white space, nor `#`, nor a newline. -/
theorem mem_literal {b : Byte} {x : Char} (h : x ∈ literal b) : ∃ bit, x = bitChar bit := by
  simp only [literal, List.mem_cons, List.not_mem_nil, or_false] at h
  obtain h | h | h | h | h | h | h | h := h <;> exact ⟨_, h⟩

/-- The characters of a line's byte. -/
def ProgramLine.text (l : ProgramLine) : List Char :=
  match l.byte with
  | some b => literal b
  | none => []

/-- The characters of a line's comment. -/
def ProgramLine.remark (l : ProgramLine) : List Char :=
  match l.comment with
  | some cs => '#' :: cs
  | none => []

theorem ProgramLine.chars_eq (l : ProgramLine) : l.chars = l.text ++ l.pad ++ l.remark := rfl

theorem ProgramLine.mem_text {l : ProgramLine} {x : Char} (h : x ∈ l.text) : ∃ bit, x = bitChar bit := by
  unfold ProgramLine.text at h
  split at h
  · exact mem_literal h
  · cases h

/-- White space behind a line's byte is trimmed, and all of it on a line without one. -/
theorem trim_append_pad {t pad : List Char} (ht : ∀ x ∈ t, isBlank x = false) (hpad : ∀ x ∈ pad, isBlank x = true) :
    trim (t ++ pad) = t := by
  have hdrop : ∀ {u : List Char}, (∀ x ∈ u, isBlank x = false) → u.dropWhile isBlank = u
    | [], _ => rfl
    | a :: u, h => List.dropWhile_cons_of_neg (by simp [h a])
  have hback : ((t ++ pad).reverse.dropWhile isBlank).reverse = t := by
    rw [List.reverse_append, List.dropWhile_append_of_pos (by simpa using hpad), hdrop (by simpa using ht),
      List.reverse_reverse]
  cases t with
  | nil =>
    have : (pad.dropWhile isBlank) = [] := List.dropWhile_eq_nil_iff.mpr hpad
    simp [trim, this]
  | cons a t =>
    rw [trim, List.cons_append, List.dropWhile_cons_of_neg (by simp [ht a]), ← List.cons_append, hback]

/-- The text of a valid line, without white space and comment, is its byte's literal or nothing (R100). -/
theorem ProgramLine.stripLine_chars {l : ProgramLine} (h : l.Valid) : stripLine l.chars = l.text := by
  have htext : ∀ x ∈ l.text, isBlank x = false := fun x hx => by
    obtain ⟨bit, rfl⟩ := ProgramLine.mem_text hx
    exact bitChar_not_blank bit
  have hbefore : ∀ x ∈ l.text ++ l.pad, (x != '#') = true := fun x hx => by
    obtain hx | hx := List.mem_append.mp hx
    · obtain ⟨bit, rfl⟩ := ProgramLine.mem_text hx
      cases bit <;> decide
    · have hblank := h.1 x hx
      rw [bne_iff_ne]
      rintro rfl
      exact absurd hblank (by decide)
  have hremark : l.remark.takeWhile (· != '#') = [] := by
    unfold ProgramLine.remark
    split <;> rfl
  rw [stripLine, l.chars_eq, List.takeWhile_append_of_pos hbefore, hremark, List.append_nil,
    trim_append_pad htext h.1]

/-- A valid line adds its byte, if it has one, to the image. -/
theorem parseLines_cons_chars {l : ProgramLine} (h : l.Valid) {ls : List (List Char)} {bs : List Byte}
    (hls : parseLines ls = some bs) : parseLines (l.chars :: ls) = some (l.byte.toList ++ bs) := by
  rw [parseLines, l.stripLine_chars h]
  cases hb : l.byte with
  | none => simp [ProgramLine.text, hb, hls]
  | some b =>
    have htext : l.text = literal b := by simp [ProgramLine.text, hb]
    have hne : (literal b).isEmpty = false := rfl
    simp [htext, hne, parseLiteral_literal, hls]

theorem parseLines_chars : ∀ {ls : List ProgramLine}, (∀ l ∈ ls, l.Valid) →
    parseLines (ls.map ProgramLine.chars) = some (ls.filterMap ProgramLine.byte)
  | [], _ => rfl
  | l :: ls, h => by
    rw [List.map_cons, parseLines_cons_chars (h l List.mem_cons_self)
      (parseLines_chars fun m hm => h m (List.mem_cons_of_mem l hm)), List.filterMap_cons]
    cases l.byte <;> rfl

theorem ProgramLine.newline_not_mem_chars {l : ProgramLine} (h : l.Valid) : Char.ofNat 0x0A ∉ l.chars := by
  rw [l.chars_eq, List.mem_append, List.mem_append]
  rintro ((hx | hx) | hx)
  · obtain ⟨bit, hbit⟩ := ProgramLine.mem_text hx
    cases bit <;> exact absurd hbit (by decide)
  · exact absurd (h.1 _ hx) (by decide)
  · unfold ProgramLine.remark at hx
    split at hx
    · next cs hcs =>
      obtain hhash | hmem := List.mem_cons.mp hx
      · exact absurd hhash (by decide)
      · exact h.2 cs hcs hmem
    · cases hx

theorem splitLines_cons_of_ne {c : Char} (hc : c ≠ Char.ofNat 0x0A) {cs l : List Char} {ls : List (List Char)}
    (h : splitLines cs = l :: ls) : splitLines (c :: cs) = (c :: l) :: ls := by
  rw [splitLines, if_neg (by simpa using hc), h]

/-- A text without a newline is one line. -/
theorem splitLines_of_not_mem : ∀ {l : List Char}, Char.ofNat 0x0A ∉ l → splitLines l = [l]
  | [], _ => rfl
  | _ :: _, h => splitLines_cons_of_ne (List.ne_of_not_mem_cons h).symm
      (splitLines_of_not_mem (List.not_mem_of_not_mem_cons h))

/-- The text before a newline is the first line. -/
theorem splitLines_append_newline {rest : List Char} : ∀ {l : List Char}, Char.ofNat 0x0A ∉ l →
    splitLines (l ++ Char.ofNat 0x0A :: rest) = l :: splitLines rest
  | [], _ => rfl
  | _ :: _, h => splitLines_cons_of_ne (List.ne_of_not_mem_cons h).symm
      (splitLines_append_newline (List.not_mem_of_not_mem_cons h))

theorem splitLines_joinLines : ∀ {ls : List (List Char)}, ls ≠ [] → (∀ l ∈ ls, Char.ofNat 0x0A ∉ l) →
    splitLines (joinLines ls) = ls
  | [l], _, h => splitLines_of_not_mem (h l List.mem_cons_self)
  | l :: m :: ls, _, h => by
    rw [joinLines, splitLines_append_newline (h l List.mem_cons_self),
      splitLines_joinLines (List.cons_ne_nil m ls) fun k hk => h k (List.mem_cons_of_mem l hk)]

/-- Settles O36: each line is stripped to its literal or to nothing (`ProgramLine.stripLine_chars`), and the lines are found again at the
newlines (`splitLines_joinLines`). -/
theorem programTextIsItsLiterals : Obligations.ProgramTextIsItsLiterals := by
  refine fun ls hvalid => ⟨?_, fun s hs k b hk => ?_⟩
  · cases ls with
    | nil => rfl
    | cons l ls =>
      have hlines : ∀ cs ∈ (l :: ls).map ProgramLine.chars, Char.ofNat 0x0A ∉ cs := fun cs hcs => by
        obtain ⟨m, hm, rfl⟩ := List.mem_map.mp hcs
        exact ProgramLine.newline_not_mem_chars (hvalid m hm)
      rw [parseProgram, splitLines_joinLines (by simp) hlines, parseLines_chars hvalid]
  · obtain ⟨hlen, rfl⟩ := launch_eq_some.mp hs
    exact launched_read hlen hk

end Sys2Proof.Machine
